-- ==== Sys2Proof/Word.lean ====
section
/-! DEFINITION. The value types of 00_scope.md rule R12: the word, the byte, and byte sequences of a fixed length. -/

namespace Sys2Proof

/-- `u32` of rule R12: every register and primitive word. Unsigned, bit 0 least significant (R11). -/
abbrev Word := BitVec 32

/-- `u8` of rule R12. -/
abbrev Byte := BitVec 8

/-- `Bytes[n]` of rule R12, `B[0]` first. -/
abbrev Bytes (n : Nat) := Vector Byte n

/-- The 16-byte block of rule R8 (`BLOCK_BYTES`), also the form of the key and of the counter. -/
abbrev Block := Bytes 16

/-- Four 32-bit words `{w0, w1, w2, w3}`: KEY0..KEY3, CTR0..CTR3 and CTRW0..CTRW3 (10_state.md R58, R60, R61),
and the datapath's T0..T3 and X0..X3 (R65). -/
structure Quad where
  w0 : Word
  w1 : Word
  w2 : Word
  w3 : Word
  deriving DecidableEq, Repr

/-- `{0, 0, 0, 0}`, the reset value of KEY, CTR and CTRW (10_state.md R68). -/
def Quad.zero : Quad := ⟨0, 0, 0, 0⟩

/-- The round-key store `RK[0..143]` of 10_state.md R63. -/
abbrev RoundKeys := Vector Word 144

end Sys2Proof
end

