-- ==== Sys2Proof/Syntax.lean ====
section
/-! DEFINITION. Syntax: the seven commands of spec/opcode_table.json, the bus transactions that carry them, and the
registers a transaction can name. -/

namespace Sys2Proof

/-- The commands of 30_encoding.md R111. No command word carries operands (R113): each command reads fixed
registers. -/
inductive Instr where
  /-- `0x1`: derive the round-key schedule (40_primitive.md R150). -/
  | keysched
  /-- `0x2`: encrypt one block (R151). -/
  | encBlock
  /-- `0x3`: decrypt one block (R152). -/
  | decBlock
  /-- `0x4`: ECB encryption of LEN bytes (41_modes.md R180). -/
  | ecbEnc
  /-- `0x5`: ECB decryption of LEN bytes (R181). -/
  | ecbDec
  /-- `0x6`: CTR encryption of LEN bytes (R182). -/
  | ctrEnc
  /-- `0x7`: CTR decryption of LEN bytes (R183). -/
  | ctrDec
  deriving DecidableEq, Repr

/-- `bus_size` of 10_state.md R30: the codes 0, 1, 2 and the reserved 3. -/
inductive BusSize where
  | bits8
  | bits16
  | bits32
  | reserved
  deriving DecidableEq, Repr

/-- A host transaction (10_state.md R31) at a byte offset within the block's window. -/
inductive Txn where
  | read (off : Nat) (size : BusSize)
  | write (off : Nat) (size : BusSize) (value : Word)
  deriving DecidableEq, Repr

/-- The byte offset a transaction is presented at (`bus_addr`). -/
def Txn.off : Txn → Nat
  | .read off _ => off
  | .write off _ _ => off

/-- The access size a transaction is presented with (`bus_size`). -/
def Txn.size : Txn → BusSize
  | .read _ size => size
  | .write _ size _ => size

/-- What a word of the window is, by 10_state.md R40. `data m` is the DATA word whose first byte is `DATA[m]`. -/
inductive Reg where
  | id
  | ctrl
  | status
  | cmd
  | src
  | dst
  | len
  | key (j : Fin 4)
  | ctr (j : Fin 4)
  | ctrw (j : Fin 4)
  | reserved
  | data (m : Nat)
  deriving DecidableEq, Repr

end Sys2Proof
end

