-- ==== Sys2Proof/Decode.lean ====
section
/-! DEFINITION. Decoding a command word (30_encoding.md R110 to R112), total on all words and on all bytes, and the
encoder written from the same table. -/

namespace Sys2Proof

/-- Why bytes are no command word. -/
inductive DecodeError where
  /-- Fewer than the four bytes a command word has (R110). -/
  | tooShort
  /-- A bit of `RSV = w[31:4]` is set (R115). -/
  | reservedBits
  /-- `OP` is `0x0` or `0x8` to `0xF` (R111). -/
  | illegalOpcode (op : BitVec 4)
  deriving DecidableEq, Repr

/-- `RSV`, bits 31:4 of a command word (R110). -/
def rsvField (w : Word) : BitVec 28 := w.extractLsb' 4 28

/-- `OP`, bits 3:0 of a command word (R110). -/
def opField (w : Word) : BitVec 4 := w.extractLsb' 0 4

/-- `decode` of R112. -/
def decode (w : Word) : Except DecodeError Instr :=
  if rsvField w = 0 then
    match opField w with
    | 0x1#4 => .ok .keysched
    | 0x2#4 => .ok .encBlock
    | 0x3#4 => .ok .decBlock
    | 0x4#4 => .ok .ecbEnc
    | 0x5#4 => .ok .ecbDec
    | 0x6#4 => .ok .ctrEnc
    | 0x7#4 => .ok .ctrDec
    | op => .error (.illegalOpcode op)
  else .error .reservedBits

/-- The command word of four bytes as the little-endian bus carries them (20_memory.md R84). -/
def commandWord (b0 b1 b2 b3 : Byte) : Word :=
  BitVec.ofNat 32 (b0.toNat + 2 ^ 8 * b1.toNat + 2 ^ 16 * b2.toNat + 2 ^ 24 * b3.toNat)

/-- The command at the head of a byte sequence, lowest address first, and the bytes after it. -/
def decodeBytes : List Byte → Except DecodeError (Instr × List Byte)
  | b0 :: b1 :: b2 :: b3 :: rest =>
    match decode (commandWord b0 b1 b2 b3) with
    | .ok i => .ok (i, rest)
    | .error e => .error e
  | _ => .error .tooShort

/-! ### Encoding -/

/-- The opcode of each command (R111). -/
def opcode : Instr → BitVec 4
  | .keysched => 0x1#4
  | .encBlock => 0x2#4
  | .decBlock => 0x3#4
  | .ecbEnc => 0x4#4
  | .ecbDec => 0x5#4
  | .ctrEnc => 0x6#4
  | .ctrDec => 0x7#4

/-- The command word of a command: `RSV = 0` and `OP` (R110). -/
def encode (i : Instr) : Word := (opcode i).zeroExtend 32

/-- The four bytes of a word, lowest address first (20_memory.md R84). -/
def wordBytes (w : Word) : List Byte :=
  [w.extractLsb' 0 8, w.extractLsb' 8 8, w.extractLsb' 16 8, w.extractLsb' 24 8]

/-- The word of an opcode-table row's `nbits` bits `w`, the bits above `nbits` zero (log 15). -/
def tableWord (nbits w : Nat) : Word := BitVec.ofNat 32 (w % 2 ^ nbits)

/-- What this decoder reads from an instruction of `nbits` bits `w`, numbered as spec/opcode_table.json numbers them.
A command is always exactly one 32-bit word (R110, R116), so more bits are no command (log 15). -/
def decodeTableWord (nbits w : Nat) : Option Instr :=
  if nbits ≤ 32 then
    match decodeBytes (wordBytes (tableWord nbits w)) with
    | .ok (i, _) => some i
    | .error _ => none
  else none

end Sys2Proof
end

