-- ==== Sys2Proof/Config.lean ====
section
/-! DEFINITION. What an implementation or a platform fixes (00_scope.md R9), and the free values: the values the spec
leaves open, as constants without a body. -/

namespace Sys2Proof

/-- The parameters of 00_scope.md R9. `State` carries them in a field no step writes, so that a claim about every
state is a claim about every parameter (log 1). -/
structure Config where
  /-- `DATA_BYTES`, the size of the internal data buffer. -/
  dataBytes : Nat
  /-- `BASE`, the system address of the block's window; OPEN, chosen by the platform. -/
  base : Nat
  /-- `ID_VALUE`, the constant the ID register reads. -/
  idValue : Word
  deriving DecidableEq, Repr

namespace Config

/-- The size of the block's window, `0x1000 + DATA_BYTES` (10_state.md R40, 20_memory.md R80). -/
def windowBytes (c : Config) : Nat := 0x1000 + c.dataBytes

/-- `ADDR_W = ceil(log2(0x1000 + DATA_BYTES))`, the width of `bus_addr` (10_state.md R30). -/
def addrWidth (c : Config) : Nat := Nat.log2 (c.windowBytes - 1) + 1

/-- The system address of the offset `off` (20_memory.md R80: `off = address - BASE`). -/
def systemAddress (c : Config) (off : Nat) : Nat := c.base + off

/-- `ID_VALUE`'s one legal value, "LEA1" (00_scope.md R9, 10_state.md R44). -/
abbrev idConstant : Word := 0x4C454131#32

/-- Which window-sized slot of the system map the platform puts the block in: OPEN (R9). A free value: no claim may
depend on it (log 2). -/
opaque freeBaseSlot : Nat

/-- The default parameters of R9: `DATA_BYTES = 4096`, `ID_VALUE = 0x4C454131`, any aligned `BASE`. -/
def default : Config :=
  { dataBytes := 4096, base := freeBaseSlot * (0x1000 + 4096), idValue := idConstant }

/-! ### Free values

Each is applied to the number of a draw (`State.draws` counts them, log 7) and to the place drawn for. -/

/-- The byte at DATA offset `a` in draw `k`: power-on contents (70_reset_and_hazards.md R231, log 3) and the
destination bytes of an aborted command (R233, log 5). -/
opaque freeByte (k a : Nat) : Byte

/-- The word `i` of draw `k`: `RK` after a reset (R231, R233, log 4) and the read data of a transaction presented
while `rst_n` is low (R230, log 6). -/
opaque freeWord (k i : Nat) : Word

/-- The error flag answered while `rst_n` is low, in draw `k` (R230, log 6). -/
opaque freeFlag (k : Nat) : Bool

end Config

end Sys2Proof
end

