-- ==== Sys2Proof/Machine/State.lean ====
section
/-! DEFINITION. The state of the block (10_state.md), as plain data, and its value right after reset. -/

namespace Sys2Proof.Machine

/-- The command phase (10_state.md R62): the block's only sequencing state. STATUS.BUSY is 1 exactly when a command
is running, so BUSY has no store of its own. -/
inductive Phase where
  | idle
  | running (op : Instr)
  deriving DecidableEq, Repr

/-- The result codes STATUS.ERR takes (60_exceptions.md R200). Codes 5 to 15 are never produced (93 I7). -/
inductive ErrCode where
  | ok
  | badCmd
  | length
  | range
  | noSched
  deriving DecidableEq, Repr

/-- The data buffer (10_state.md R66). `cells` lists the bytes something has written, addresses strictly rising;
an address that is not listed still holds its power-on draw, the free byte of draw number `draw` (log 3). -/
structure Memory where
  draw : Nat
  cells : List Host.Cell
  deriving DecidableEq, Repr

/-- The answer to a transaction (10_state.md R31): `Read` answers data and an error flag, `Write` an error flag
alone. A bus error answers data 0 (20_memory.md R82). -/
structure Response where
  rdata : Option Word
  err : Bool
  deriving DecidableEq, Repr

/-- What happens next at the block's ports (log 8). -/
inductive Input where
  /-- The host presents a transaction (10_state.md R31). -/
  | bus (t : Txn)
  /-- The engine's completion step falls here: the draw of the latency (70_reset_and_hazards.md R250). -/
  | engine
  /-- `rst_n` goes low (R230). -/
  | rstLow
  /-- `rst_n` rises (R230). -/
  | rstHigh
  deriving DecidableEq, Repr

/-- Everything the spec gives the block, with the parameters and the model's own bookkeeping. -/
structure State where
  /-- The platform's parameters (00_scope.md R9). No step writes them. -/
  cfg : Config
  /-- CTRL.IE (10_state.md R45). -/
  ie : Bool
  /-- STATUS.DONE (R49). -/
  done : Bool
  /-- STATUS.ACCERR (R51). -/
  accerr : Bool
  /-- STATUS.ERR (R52). -/
  err : ErrCode
  /-- SRC (R55). -/
  src : Word
  /-- DST (R56). -/
  dst : Word
  /-- LEN (R57). -/
  len : Word
  /-- KEY0..KEY3 (R58). -/
  key : Quad
  /-- CTR0..CTR3, the initial counter (R60). -/
  ctr : Quad
  /-- CTRW0..CTRW3, the working counter (R61). -/
  ctrw : Quad
  /-- The command phase (R62). -/
  phase : Phase
  /-- SCHED_VALID (R64), shown in STATUS (R50). -/
  schedValid : Bool
  /-- RK[0..143] (R63). -/
  rk : RoundKeys
  /-- DATA (R66). -/
  data : Memory
  /-- The level of `rst_n` (R30): `false` while the block is held in reset (70_reset_and_hazards.md R230). -/
  rstN : Bool
  /-- `bus_rdata` and `bus_err` of the latest transaction (R30, R31; log 13). -/
  resp : Option Response
  /-- The model's own: the number of the next draw of free values (log 7). -/
  draws : Nat
  /-- The model's own: what is still to happen at the ports, first first (log 8). -/
  inputs : List Input
  deriving DecidableEq, Repr

/-- Why the machine stops. -/
inductive Fault where
  /-- A completing command's source or destination range passes the end of DATA. `MemRead` and `MemWrite` are
  defined only inside DATA (00_scope.md R16). Raised by `completeCommand`; safe, since every command checks its
  ranges before it runs (60_exceptions.md R203) and nothing can change them while it does (20_memory.md R92): no run
  from reset reaches it (log 11). -/
  | engineOutOfRange
  deriving DecidableEq, Repr

/-- Why the model gives no meaning. -/
inductive Refusal where
  /-- `exec` has no meaning yet for the command with this mnemonic. Raised by no arm of this model; safe. -/
  | notModelled (mnemonic : String)
  deriving DecidableEq, Repr

/-- `RK` after a reset: any value, the free words of draw `k` (70_reset_and_hazards.md R231, R233; log 4). -/
def freeRoundKeys (k : Nat) : RoundKeys := Vector.ofFn fun i => Config.freeWord k i

/-- The block right after power-on reset, `rst_n` high again (10_state.md R68, 70_reset_and_hazards.md R230, R231):
every register 0, idle, no schedule, `RK` and DATA any value (draw 0). -/
def State.reset : State where
  cfg := Config.default
  ie := false
  done := false
  accerr := false
  err := .ok
  src := 0
  dst := 0
  len := 0
  key := Quad.zero
  ctr := Quad.zero
  ctrw := Quad.zero
  phase := .idle
  schedValid := false
  rk := freeRoundKeys 0
  data := { draw := 0, cells := [] }
  rstN := true
  resp := none
  draws := 1
  inputs := []

end Sys2Proof.Machine
end

