-- ==== Sys2Proof/Machine/Bits.lean ====
section
/-! DEFINITION. The word operators and byte orders of 00_scope.md R13, R14 and 40_primitive.md R130 to R133. -/

namespace Sys2Proof.Machine

/-- `add32` (40_primitive.md R130): addition modulo 2^32, the carry discarded. -/
def add32 (a b : Word) : Word := a + b

/-- `sub32` (R131): subtraction modulo 2^32, the borrow discarded. -/
def sub32 (a b : Word) : Word := a - b

/-- `rol32` (00_scope.md R13). -/
def rol32 (x : Word) (n : Nat) : Word := (x <<< (n % 32)) ||| (x >>> ((32 - n % 32) % 32))

/-- `ror32` (R13). -/
def ror32 (x : Word) (n : Nat) : Word := rol32 x ((32 - n % 32) % 32)

/-- `le32(b0, b1, b2, b3)` (R14). -/
def le32 (b0 b1 b2 b3 : Byte) : Word :=
  BitVec.ofNat 32 (b0.toNat + 2 ^ 8 * b1.toNat + 2 ^ 16 * b2.toNat + 2 ^ 24 * b3.toNat)

/-- Byte `i` of a word, `w[8i+7:8i]` (R14, 20_memory.md R84). -/
def byteOf (w : Word) (i : Nat) : Byte := w.extractLsb' (8 * i) 8

/-- Word `j` of four. -/
def quadGet (q : Quad) : Fin 4 → Word
  | 0 => q.w0
  | 1 => q.w1
  | 2 => q.w2
  | 3 => q.w3

/-- Four words with word `j` replaced. -/
def quadSet (q : Quad) (v : Word) : Fin 4 → Quad
  | 0 => { q with w0 := v }
  | 1 => { q with w1 := v }
  | 2 => { q with w2 := v }
  | 3 => { q with w3 := v }

/-- `words_le(B)` (R14): the four little-endian words of a block. -/
def wordsLe (b : Block) : Quad where
  w0 := le32 b[0] b[1] b[2] b[3]
  w1 := le32 b[4] b[5] b[6] b[7]
  w2 := le32 b[8] b[9] b[10] b[11]
  w3 := le32 b[12] b[13] b[14] b[15]

/-- `bytes_le(W)` (R14): byte `4j+i` is `W[j][8i+7:8i]`. -/
def bytesLe (q : Quad) : Block :=
  #v[byteOf q.w0 0, byteOf q.w0 1, byteOf q.w0 2, byteOf q.w0 3,
     byteOf q.w1 0, byteOf q.w1 1, byteOf q.w1 2, byteOf q.w1 3,
     byteOf q.w2 0, byteOf q.w2 1, byteOf q.w2 2, byteOf q.w2 3,
     byteOf q.w3 0, byteOf q.w3 1, byteOf q.w3 2, byteOf q.w3 3]

/-- `xor_bytes` (41_modes.md R173). -/
def xorBytes {n : Nat} (a b : Bytes n) : Bytes n := Vector.zipWith (· ^^^ ·) a b

/-- The first `m` bytes of a block, `KS[0..m)` of R173, for `m ≤ 16`. -/
def blockPrefix (m : Nat) (b : Block) : Bytes m := Vector.ofFn fun i => b.getD i 0

end Sys2Proof.Machine
end

