-- ==== Sys2Proof/Machine/Operands.lean ====
section
/-! DEFINITION. What a command reads: the fixed registers in place of operands (30_encoding.md R113, R114), and the
checks on them (60_exceptions.md R202 to R204, R207). -/

namespace Sys2Proof.Machine

/-- `zext(x[SRC])`: unsigned, not scaled, not reduced (30_encoding.md R114). -/
def srcOffset (s : State) : Nat := s.src.toNat

/-- `zext(x[DST])` (R114). -/
def dstOffset (s : State) : Nat := s.dst.toNat

/-- `L = zext(x[LEN])` (R114). -/
def byteLength (s : State) : Nat := s.len.toNat

/-- The master key: byte `4j+i` is `KEYj[8i+7:8i]` (10_state.md R59). -/
def keyBytes (s : State) : Block := bytesLe s.key

/-- The initial counter `C0`: byte `4j+i` is `CTRj[8i+7:8i]` (R60). -/
def initialCounter (s : State) : Block := bytesLe s.ctr

/-- The working counter `CW` as the host reads it from CTRW0..CTRW3 (R61). -/
def workingCounter (s : State) : Block := bytesLe s.ctrw

/-- STATUS.BUSY (R48): 1 exactly when a command is running (R62). -/
def busy (s : State) : Bool :=
  match s.phase with
  | .idle => false
  | .running _ => true

/-- `n` of 60_exceptions.md R203: how many bytes a command reads at SRC and writes at DST. KEYSCHED touches no
DATA. -/
def dataLength (op : Instr) (s : State) : Option Nat :=
  match op with
  | .keysched => none
  | .encBlock => some 16
  | .decBlock => some 16
  | .ecbEnc => some (byteLength s)
  | .ecbDec => some (byteLength s)
  | .ctrEnc => some (byteLength s)
  | .ctrDec => some (byteLength s)

/-- `range_fails(op)` (R203): a range passes the end of DATA. The sums are over the naturals. -/
def rangeFails (op : Instr) (s : State) : Bool :=
  match dataLength op s with
  | none => false
  | some n => decide (srcOffset s + n > s.cfg.dataBytes) || decide (dstOffset s + n > s.cfg.dataBytes)

/-- The commands that check LEN (R202). -/
def isEcb : Instr → Bool
  | .keysched => false
  | .encBlock => false
  | .decBlock => false
  | .ecbEnc => true
  | .ecbDec => true
  | .ctrEnc => false
  | .ctrDec => false

/-- The commands that use a schedule derived before (R204). -/
def usesStoredSchedule : Instr → Bool
  | .keysched => false
  | .encBlock => true
  | .decBlock => true
  | .ecbEnc => false
  | .ecbDec => false
  | .ctrEnc => false
  | .ctrDec => false

/-- The checks of R207 after decoding, in order: the first that fails is the only one reported. -/
def checkCommand (op : Instr) (s : State) : Option ErrCode :=
  if isEcb op && byteLength s % 16 != 0 then some .length
  else if rangeFails op s then some .range
  else if usesStoredSchedule op && !s.schedValid then some .noSched
  else none

end Sys2Proof.Machine
end

