-- ==== Sys2Proof/Machine/Flags.lean ====
section
/-! DEFINITION. The STATUS and CTRL words, their W1C and write-only bits, and the interrupt (10_state.md R45 to R53,
60_exceptions.md R212). -/

namespace Sys2Proof.Machine

/-- The code of a result in STATUS.ERR (60_exceptions.md R200). -/
def errNumber : ErrCode → Nat
  | .ok => 0
  | .badCmd => 1
  | .length => 2
  | .range => 3
  | .noSched => 4

/-- What STATUS reads: bit 0 BUSY, bit 1 DONE, bit 2 SCHED_VALID, bit 3 ACCERR, bits 11:8 ERR, the rest 0
(10_state.md R48 to R53). -/
def statusWord (s : State) : Word :=
  BitVec.ofNat 32
    ((busy s).toNat + 2 * s.done.toNat + 4 * s.schedValid.toNat + 8 * s.accerr.toNat + 256 * errNumber s.err)

/-- What CTRL reads: bit 0 IE, the rest 0 (R45 to R47). -/
def ctrlWord (s : State) : Word := BitVec.ofNat 32 s.ie.toNat

/-- A write of `v` to STATUS: a 1 in bit 1 clears DONE, a 1 in bit 3 clears ACCERR, nothing else changes (R49, R51,
R53). -/
def writeStatus (v : Word) (s : State) : State :=
  { s with done := s.done && !v.getLsbD 1, accerr := s.accerr && !v.getLsbD 3 }

/-- A write of `v` to CTRL.IE (R45). -/
def writeIe (v : Word) (s : State) : State := { s with ie := v.getLsbD 0 }

/-- `irq = CTRL.IE AND STATUS.DONE` (60_exceptions.md R212, 10_state.md R67). -/
def irq (s : State) : Bool := s.ie && s.done

end Sys2Proof.Machine
end

