-- ==== Sys2Proof/Machine/Lea.lean ====
section
/-! DEFINITION. The block-cipher primitive (40_primitive.md): `derive_schedule`, `encrypt_block`, `decrypt_block`, and
the equivalent four-round form. -/

namespace Sys2Proof.Machine

/-! ### Key schedule -/

/-- `DELTA[0..7]` (R135; log 21). Entries 4 to 7 are never read (R136; log 18). -/
def deltaTable : Vector Word 8 :=
  #v[0xc3efe9db#32, 0x44626b02#32, 0x79e27c8a#32, 0x78df30ec#32,
     0x715ea49e#32, 0xc785da0a#32, 0xe04ef22a#32, 0xe5c40957#32]

/-- The delta constant of round `r`, `DELTA[r mod 4]` (R136). -/
def delta (r : Nat) : Word := deltaTable.getD (r % 4) 0

/-- One round of the schedule on T0..T3 (R137, R138, R141). -/
def keyRound (r : Nat) (t : Quad) : Quad where
  w0 := rol32 (add32 t.w0 (rol32 (delta r) r)) 1
  w1 := rol32 (add32 t.w1 (rol32 (delta r) (r + 1))) 3
  w2 := rol32 (add32 t.w2 (rol32 (delta r) (r + 2))) 6
  w3 := rol32 (add32 t.w3 (rol32 (delta r) (r + 3))) 11

/-- The six words a round writes, in the order of R139. -/
def roundSlots (t : Quad) : List Word := [t.w0, t.w1, t.w2, t.w1, t.w3, t.w1]

/-- The words of `n` rounds from round `r` on, starting from T = `t` (R141). -/
def scheduleFrom : Nat → Nat → Quad → List Word
  | 0, _, _ => []
  | n + 1, r, t => roundSlots (keyRound r t) ++ scheduleFrom n (r + 1) (keyRound r t)

theorem scheduleFrom_length (n r : Nat) (t : Quad) : (scheduleFrom n r t).length = 6 * n := by
  induction n generalizing r t with
  | zero => rfl
  | succ n ih => simp [scheduleFrom, roundSlots, ih]; omega

/-- `derive_schedule(K)` (R141), the key loaded as little-endian words (R140). -/
def deriveSchedule (k : Block) : RoundKeys :=
  ⟨(scheduleFrom 24 0 (wordsLe k)).toArray, by simp [scheduleFrom_length]⟩

/-! ### Encryption and decryption -/

/-- `RK[i]`, for `i < 144`. -/
def roundKey (rk : RoundKeys) (i : Nat) : Word := rk.getD i 0

/-- `enc_round(X, RK[6i..6i+5])` (R142; log 21). -/
def encRound (rk : RoundKeys) (i : Nat) (x : Quad) : Quad where
  w0 := rol32 (add32 (x.w0 ^^^ roundKey rk (6 * i)) (x.w1 ^^^ roundKey rk (6 * i + 1))) 9
  w1 := ror32 (add32 (x.w1 ^^^ roundKey rk (6 * i + 2)) (x.w2 ^^^ roundKey rk (6 * i + 3))) 5
  w2 := ror32 (add32 (x.w2 ^^^ roundKey rk (6 * i + 4)) (x.w3 ^^^ roundKey rk (6 * i + 5))) 3
  w3 := x.w0

/-- The encryption rounds `0 .. n-1`, in that order (R143, R144). -/
def encRounds (rk : RoundKeys) : Nat → Quad → Quad
  | 0, x => x
  | n + 1, x => encRound rk n (encRounds rk n x)

/-- `encrypt_block(RK, P)` (R144). -/
def encryptBlock (rk : RoundKeys) (p : Block) : Block := bytesLe (encRounds rk 24 (wordsLe p))

/-- Y1 of `dec_round`, from Y0 = `x.w3` (R145). -/
def decWord1 (rk : RoundKeys) (i : Nat) (x : Quad) : Word :=
  sub32 (ror32 x.w0 9) (x.w3 ^^^ roundKey rk (6 * i)) ^^^ roundKey rk (6 * i + 1)

/-- Y2 of `dec_round`, from Y1 (R145). -/
def decWord2 (rk : RoundKeys) (i : Nat) (x : Quad) : Word :=
  sub32 (rol32 x.w1 5) (decWord1 rk i x ^^^ roundKey rk (6 * i + 2)) ^^^ roundKey rk (6 * i + 3)

/-- Y3 of `dec_round`, from Y2 (R145). -/
def decWord3 (rk : RoundKeys) (i : Nat) (x : Quad) : Word :=
  sub32 (rol32 x.w2 3) (decWord2 rk i x ^^^ roundKey rk (6 * i + 4)) ^^^ roundKey rk (6 * i + 5)

/-- `dec_round(X, RK[6i..6i+5])` (R145; log 21). -/
def decRound (rk : RoundKeys) (i : Nat) (x : Quad) : Quad where
  w0 := x.w3
  w1 := decWord1 rk i x
  w2 := decWord2 rk i x
  w3 := decWord3 rk i x

/-- The decryption rounds `n-1` down to `0`, in that order (R146). -/
def decRounds (rk : RoundKeys) : Nat → Quad → Quad
  | 0, x => x
  | n + 1, x => decRounds rk n (decRound rk n x)

/-- `decrypt_block(RK, C)` (R146). -/
def decryptBlock (rk : RoundKeys) (c : Block) : Block := bytesLe (decRounds rk 24 (wordsLe c))

/-! ### The equivalent four-round form (R148, informative; log 21) -/

/-- Word `k` of group `g`'s 24 round keys, `RK[24g + k]`. -/
def groupKey (rk : RoundKeys) (g k : Nat) : Word := roundKey rk (24 * g + k)

/-- Round `4g` in place: X3, X2, X1 are written. -/
def groupStep0 (rk : RoundKeys) (g : Nat) (x : Quad) : Quad where
  w0 := x.w0
  w1 := rol32 (add32 (x.w0 ^^^ groupKey rk g 0) (x.w1 ^^^ groupKey rk g 1)) 9
  w2 := ror32 (add32 (x.w1 ^^^ groupKey rk g 2) (x.w2 ^^^ groupKey rk g 3)) 5
  w3 := ror32 (add32 (x.w2 ^^^ groupKey rk g 4) (x.w3 ^^^ groupKey rk g 5)) 3

/-- Round `4g+1` in place: X0, X3, X2 are written. -/
def groupStep1 (rk : RoundKeys) (g : Nat) (x : Quad) : Quad where
  w0 := ror32 (add32 (x.w3 ^^^ groupKey rk g 10) (x.w0 ^^^ groupKey rk g 11)) 3
  w1 := x.w1
  w2 := rol32 (add32 (x.w1 ^^^ groupKey rk g 6) (x.w2 ^^^ groupKey rk g 7)) 9
  w3 := ror32 (add32 (x.w2 ^^^ groupKey rk g 8) (x.w3 ^^^ groupKey rk g 9)) 5

/-- Round `4g+2` in place: X1, X0, X3 are written. -/
def groupStep2 (rk : RoundKeys) (g : Nat) (x : Quad) : Quad where
  w0 := ror32 (add32 (x.w3 ^^^ groupKey rk g 14) (x.w0 ^^^ groupKey rk g 15)) 5
  w1 := ror32 (add32 (x.w0 ^^^ groupKey rk g 16) (x.w1 ^^^ groupKey rk g 17)) 3
  w2 := x.w2
  w3 := rol32 (add32 (x.w2 ^^^ groupKey rk g 12) (x.w3 ^^^ groupKey rk g 13)) 9

/-- Round `4g+3` in place: X2, X1, X0 are written. -/
def groupStep3 (rk : RoundKeys) (g : Nat) (x : Quad) : Quad where
  w0 := rol32 (add32 (x.w3 ^^^ groupKey rk g 18) (x.w0 ^^^ groupKey rk g 19)) 9
  w1 := ror32 (add32 (x.w0 ^^^ groupKey rk g 20) (x.w1 ^^^ groupKey rk g 21)) 5
  w2 := ror32 (add32 (x.w1 ^^^ groupKey rk g 22) (x.w2 ^^^ groupKey rk g 23)) 3
  w3 := x.w3

/-- The groups `0 .. n-1` of four rounds each (R148). -/
def encGroups (rk : RoundKeys) : Nat → Quad → Quad
  | 0, x => x
  | g + 1, x => groupStep3 rk g (groupStep2 rk g (groupStep1 rk g (groupStep0 rk g (encGroups rk g x))))

/-- Encryption by the unrolled form of R148. -/
def encryptBlockUnrolled (rk : RoundKeys) (p : Block) : Block := bytesLe (encGroups rk 6 (wordsLe p))

end Sys2Proof.Machine
end

