-- ==== Sys2Proof/Machine/Ops.lean ====
section
/-! DEFINITION. The shared operations: the data buffer, starting a command, reporting a command error, completing a
command, refusing an access, and the resets. -/

namespace Sys2Proof.Machine

/-! ### The data buffer -/

/-- The listed byte at an address, if any. -/
def lookupCell (a : Nat) : List Host.Cell → Option Byte
  | [] => none
  | c :: cs => if c.1 = a then some c.2 else lookupCell a cs

/-- The list with the byte at `a` set, addresses kept rising. -/
def insertCell (a : Nat) (v : Byte) : List Host.Cell → List Host.Cell
  | [] => [(a, v)]
  | c :: cs =>
    if a < c.1 then (a, v) :: c :: cs
    else if a = c.1 then (a, v) :: cs
    else c :: insertCell a v cs

/-- What an address that is not listed reads as: the free byte of the power-on draw (70_reset_and_hazards.md R231,
log 3). -/
def Memory.unlisted (d : Memory) (a : Nat) : Byte := Config.freeByte d.draw a

/-- The byte `DATA[a]`. -/
def Memory.readByte (d : Memory) (a : Nat) : Byte :=
  match lookupCell a d.cells with
  | some v => v
  | none => d.unlisted a

/-- `DATA[a] <- v`. -/
def Memory.writeByte (d : Memory) (a : Nat) (v : Byte) : Memory :=
  { d with cells := insertCell a v d.cells }

/-- `MemRead(a, n)` (00_scope.md R16). -/
def Memory.read (d : Memory) (a n : Nat) : Bytes n := Vector.ofFn fun i => d.readByte (a + i)

/-- Writes bytes at `a`, `a+1`, … in that order. -/
def Memory.writeList (d : Memory) (a : Nat) : List Byte → Memory
  | [] => d
  | b :: bs => (d.writeByte a b).writeList (a + 1) bs

/-- `MemWrite(a, n, v)` (00_scope.md R16). -/
def Memory.write (d : Memory) (a : Nat) {n : Nat} (v : Bytes n) : Memory := d.writeList a v.toList

/-- The bytes of DATA from `a` to `a+n-1` become any value: the free bytes of draw `k` (70_reset_and_hazards.md R233,
log 5). -/
def Memory.scramble (d : Memory) (k a : Nat) : Nat → Memory
  | 0 => d
  | n + 1 => (d.scramble k a n).writeByte (a + n) (Config.freeByte k (a + n))

/-- The canonical form: addresses strictly rising, all inside DATA (log 3). -/
abbrev Memory.wf (dataBytes : Nat) (d : Memory) : Prop :=
  (d.cells.map Prod.fst).Pairwise (· < ·) ∧ ∀ c ∈ d.cells, c.1 < dataBytes

/-- A host read of the DATA word at byte `m` (20_memory.md R86). -/
def Memory.readWord (d : Memory) (m : Nat) : Word :=
  le32 (d.readByte m) (d.readByte (m + 1)) (d.readByte (m + 2)) (d.readByte (m + 3))

/-- A host write of the DATA word at byte `m` (R86). -/
def Memory.writeWord (d : Memory) (m : Nat) (v : Word) : Memory :=
  d.writeList m [byteOf v 0, byteOf v 1, byteOf v 2, byteOf v 3]

/-! ### Starting a command -/

/-- Acceptance (60_exceptions.md R205): `phase <- RUNNING(op)` (and so BUSY), DONE and ERR 0, nothing else. -/
def acceptCommand (op : Instr) (s : State) : State :=
  { s with phase := .running op, done := false, err := .ok }

/-- `raise CmdError(code)` (R206): DONE 1 and ERR the code, nothing else. This is the block's whole trap entry
(R211); the host returns from it by clearing DONE (R213, R215). -/
def commandError (code : ErrCode) (s : State) : State := { s with done := true, err := code }

/-- A CMD write of an accepted word while idle, after decoding (R207): the first check that fails is reported, else
the command is accepted. -/
def startCommand (op : Instr) (s : State) : State :=
  match checkCommand op s with
  | some code => commandError code s
  | none => acceptCommand op s

/-- An access refused because the block is busy sets ACCERR and does nothing else (20_memory.md R92, 10_state.md
R51). -/
def refuseAccess (s : State) : State := { s with accerr := true }

/-! ### Completing a command -/

/-- What every completion does beside the command's effect (70_reset_and_hazards.md R250): `phase <- IDLE` (and so
BUSY 0), DONE 1. ERR stays. -/
def finishCommand (s : State) : State := { s with phase := .idle, done := true }

/-- The engine's completion step for `op` with its effect (R250). The engine's accesses are defined only inside DATA
(00_scope.md R16, log 11). -/
def completeCommand (op : Instr) (effect : State → State) (s : State) : Host.Outcome State Fault Refusal :=
  if rangeFails op s then .fault .engineOutOfRange else .next (finishCommand (effect s))

/-- One atomic step of the command `op` (log 9): while idle, the `accept:` part of its rule; while it runs, the
`complete:` part. While another command runs, `op` can only be a CMD write, which is refused (60_exceptions.md R208,
log 10). -/
def runCommand (op : Instr) (effect : State → State) (s : State) : Host.Outcome State Fault Refusal :=
  match s.phase with
  | .idle => .next (startCommand op s)
  | .running running => if running = op then completeCommand op effect s else .next (refuseAccess s)

/-- `RK <- derive_schedule(K) ; SCHED_VALID <- 1` (40_primitive.md R150, 41_modes.md R175). -/
def storeSchedule (s : State) : State := { s with rk := deriveSchedule (keyBytes s), schedValid := true }

/-! ### Resets -/

/-- Every register at its reset value, `RK` any value (10_state.md R68, 70_reset_and_hazards.md R230, R231). DATA is
left to the caller. -/
def resetRegisters (s : State) : State :=
  { s with
    ie := false
    done := false
    accerr := false
    err := .ok
    src := 0
    dst := 0
    len := 0
    key := Quad.zero
    ctr := Quad.zero
    ctrw := Quad.zero
    phase := .idle
    schedValid := false
    rk := freeRoundKeys s.draws
    draws := s.draws + 1 }

/-- How many DATA bytes the destination range of the running command holds (R233). -/
def abortedLength (s : State) : Nat :=
  match s.phase with
  | .idle => 0
  | .running op => min ((dataLength op s).getD 0) (s.cfg.dataBytes - dstOffset s)

/-- DATA after a soft reset (R233): unchanged when idle, any value in the running command's destination range
(log 16). -/
def abortedData (s : State) : Memory := s.data.scramble s.draws (dstOffset s) (abortedLength s)

/-- Soft reset (R233). -/
def softReset (s : State) : State := resetRegisters { s with data := abortedData s }

/-- `rst_n` goes low (R230, R231): every register at its reset value, every DATA byte any value, the block held. -/
def powerOnReset (s : State) : State :=
  resetRegisters { s with data := { draw := s.draws, cells := [] }, rstN := false }

end Sys2Proof.Machine
end

