-- ==== Sys2Proof/Machine/BlockCommands.lean ====
section
/-! DEFINITION. The commands that expose the primitive: KEYSCHED, ENC_BLOCK, DEC_BLOCK (40_primitive.md section 6). -/

namespace Sys2Proof.Machine

/-- One block through `f`: all 16 input bytes are read before any output byte is written (20_memory.md R98). -/
def transformBlock (f : Block → Block) (src dst : Nat) (d : Memory) : Memory :=
  d.write dst (f (d.read src 16))

/-- The `complete:` part of R151. -/
def encBlockEffect (s : State) : State :=
  { s with data := transformBlock (encryptBlock s.rk) (srcOffset s) (dstOffset s) s.data }

/-- The `complete:` part of R152. -/
def decBlockEffect (s : State) : State :=
  { s with data := transformBlock (decryptBlock s.rk) (srcOffset s) (dstOffset s) s.data }

/-- KEYSCHED (R150). -/
def execKeysched (s : State) : Host.Outcome State Fault Refusal := runCommand .keysched storeSchedule s

/-- ENC_BLOCK (R151). -/
def execEncBlock (s : State) : Host.Outcome State Fault Refusal := runCommand .encBlock encBlockEffect s

/-- DEC_BLOCK (R152). -/
def execDecBlock (s : State) : Host.Outcome State Fault Refusal := runCommand .decBlock decBlockEffect s

end Sys2Proof.Machine
end

