-- ==== Sys2Proof/Machine/Counter.lean ====
section
/-! DEFINITION. The counter and the keystream (41_modes.md R170 to R173). -/

namespace Sys2Proof.Machine

/-- The loop of `inc_ctr` from byte `i` down to byte 0: add one to byte `i`; stop unless it became 0, the carry
(R170). -/
def incCtrFrom : Nat → Block → Block
  | 0, c => c.setIfInBounds 0 (c.getD 0 0 + 1)
  | i + 1, c =>
    if c.getD (i + 1) 0 + 1 = 0 then incCtrFrom i (c.setIfInBounds (i + 1) 0)
    else c.setIfInBounds (i + 1) (c.getD (i + 1) 0 + 1)

/-- `inc_ctr(C)` (R170): the carry runs from byte 15 toward byte 0 and wraps silently. -/
def incCtr (c : Block) : Block := incCtrFrom 15 c

/-- The bytes `0 .. i` of a counter as a big-endian integer (R171). -/
def bePrefix (c : Block) : Nat → Nat
  | 0 => (c.getD 0 0).toNat
  | i + 1 => 256 * bePrefix c i + (c.getD (i + 1) 0).toNat

/-- `be128(C)` (R171): the counter as a big-endian 128-bit integer, byte 0 most significant. -/
def be128 (c : Block) : Nat := bePrefix c 15

/-- `KS(C)` (R172). -/
def keystream (rk : RoundKeys) (c : Block) : Block := encryptBlock rk c

end Sys2Proof.Machine
end

