-- ==== Sys2Proof/Machine/ModeCommands.lean ====
section
/-! DEFINITION. The mode commands: ECB_ENC, ECB_DEC, CTR_ENC, CTR_DEC (41_modes.md section 2). -/

namespace Sys2Proof.Machine

/-! ### ECB -/

/-- Blocks `0 .. n-1` through `f`, in that order: block `k` is written before block `k+1` is read (R180, R181,
20_memory.md R98). -/
def ecbBlocks (f : Block → Block) (src dst : Nat) : Nat → Memory → Memory
  | 0, d => d
  | k + 1, d => transformBlock f (src + 16 * k) (dst + 16 * k) (ecbBlocks f src dst k d)

/-- ECB of the whole buffer under the schedule in `RK`. -/
def ecbData (f : Block → Block) (s : State) : State :=
  { s with data := ecbBlocks f (srcOffset s) (dstOffset s) (byteLength s / 16) s.data }

/-- The `complete:` part of R180: derive, then encrypt. -/
def ecbEncEffect (s : State) : State := ecbData (encryptBlock (storeSchedule s).rk) (storeSchedule s)

/-- The `complete:` part of R181: derive, then decrypt. -/
def ecbDecEffect (s : State) : State := ecbData (decryptBlock (storeSchedule s).rk) (storeSchedule s)

/-! ### CTR -/

/-- What a CTR command carries from chunk to chunk: the counter `CW` and DATA (R182). -/
structure CtrRun where
  counter : Block
  data : Memory
  deriving DecidableEq, Repr

/-- Full chunk `k` (R182): keystream from `CW`, XOR, write, increment. -/
def ctrChunk (rk : RoundKeys) (src dst k : Nat) (c : CtrRun) : CtrRun where
  counter := incCtr c.counter
  data := c.data.write (dst + 16 * k) (xorBytes (c.data.read (src + 16 * k) 16) (keystream rk c.counter))

/-- Full chunks `0 .. n-1`, in that order. -/
def ctrChunks (rk : RoundKeys) (src dst : Nat) : Nat → CtrRun → CtrRun
  | 0, c => c
  | k + 1, c => ctrChunk rk src dst k (ctrChunks rk src dst k c)

/-- The final partial chunk of `rem < 16` bytes after `n` full ones: only `KS[0..rem)` is used and the counter is not
incremented (R173, R176, R182). With `rem = 0` it reads and writes nothing. -/
def ctrTail (rk : RoundKeys) (src dst n rem : Nat) (c : CtrRun) : CtrRun where
  counter := c.counter
  data := c.data.write (dst + 16 * n)
    (xorBytes (c.data.read (src + 16 * n) rem) (blockPrefix rem (keystream rk c.counter)))

/-- A CTR command's chunks, from the initial counter (R174, R182). -/
def ctrRun (rk : RoundKeys) (src dst len : Nat) (c : CtrRun) : CtrRun :=
  ctrTail rk src dst (len / 16) (len % 16) (ctrChunks rk src dst (len / 16) c)

/-- CTR of the whole buffer under the schedule in `RK`; `CTRW <- CW` at the end, CTR0..CTR3 untouched (R176, R177). -/
def ctrData (s : State) : State :=
  { s with
    data := (ctrRun s.rk (srcOffset s) (dstOffset s) (byteLength s) ⟨initialCounter s, s.data⟩).data
    ctrw := wordsLe (ctrRun s.rk (srcOffset s) (dstOffset s) (byteLength s) ⟨initialCounter s, s.data⟩).counter }

/-- The `complete:` part of R182, and of R183, which is identical to it in every step. -/
def ctrEffect (s : State) : State := ctrData (storeSchedule s)

/-! ### The four commands -/

/-- ECB_ENC (R180). -/
def execEcbEnc (s : State) : Host.Outcome State Fault Refusal := runCommand .ecbEnc ecbEncEffect s

/-- ECB_DEC (R181). -/
def execEcbDec (s : State) : Host.Outcome State Fault Refusal := runCommand .ecbDec ecbDecEffect s

/-- CTR_ENC (R182). -/
def execCtrEnc (s : State) : Host.Outcome State Fault Refusal := runCommand .ctrEnc ctrEffect s

/-- CTR_DEC (R183): defined as CTR encryption. -/
def execCtrDec (s : State) : Host.Outcome State Fault Refusal := runCommand .ctrDec ctrEffect s

end Sys2Proof.Machine
end

