-- ==== Sys2Proof/WellFormed.lean ====
section
/-! DEFINITION. Well-formedness: which terms of the syntax the hardware can hold or be given. -/

namespace Sys2Proof

/-- Every command is well formed: a command word has no operand field that could be out of range
(30_encoding.md R110, R113). One arm per constructor, so that a command with operands cannot slip past. -/
def Instr.wf : Instr → Bool
  | .keysched => true
  | .encBlock => true
  | .decBlock => true
  | .ecbEnc => true
  | .ecbDec => true
  | .ctrEnc => true
  | .ctrDec => true

/-- The legal values of the parameters (00_scope.md R9): `DATA_BYTES` a multiple of 16 from 32 to 1048576, `BASE`
aligned to the window size, `ID_VALUE` fixed. -/
def Config.wf (c : Config) : Bool :=
  c.dataBytes % 16 == 0 && decide (32 ≤ c.dataBytes) && decide (c.dataBytes ≤ 1048576)
    && c.base % c.windowBytes == 0 && c.idValue == Config.idConstant

/-- A transaction the block accepts: 32 bits wide, aligned, inside the window (20_memory.md R81, R82). Any other
gets a bus error. -/
def Txn.wf (c : Config) (t : Txn) : Bool :=
  t.size == .bits32 && t.off % 4 == 0 && decide (t.off < c.windowBytes)

end Sys2Proof
end

