-- ==== Sys2Proof/Machine/Bus.lean ====
section
/-! DEFINITION. The slave port: what a host transaction does (10_state.md R40 to R61, 20_memory.md R80 to R92), and
the block's other inputs. -/

namespace Sys2Proof.Machine

/-! ### The register map -/

/-- The register at word `w` of the register page, offset `4w` (10_state.md R40). -/
def pageReg (w : Nat) : Reg :=
  match w with
  | 0 => .id
  | 1 => .ctrl
  | 2 => .status
  | 3 => .cmd
  | 4 => .src
  | 5 => .dst
  | 6 => .len
  | 8 => .key 0
  | 9 => .key 1
  | 10 => .key 2
  | 11 => .key 3
  | 12 => .ctr 0
  | 13 => .ctr 1
  | 14 => .ctr 2
  | 15 => .ctr 3
  | 16 => .ctrw 0
  | 17 => .ctrw 1
  | 18 => .ctrw 2
  | 19 => .ctrw 3
  | _ => .reserved

/-- What an aligned offset inside the window names (R40, 20_memory.md R80): the register page, then
the DATA window from `0x1000` on. -/
def regAt (off : Nat) : Reg :=
  if off < 0x1000 then pageReg (off / 4) else .data (off - 0x1000)

/-- The offset of CMD (R40). -/
abbrev cmdOffset : Nat := 0x00C

/-! ### Reads -/

/-- What a register reads as when the read is not refused (R41 to R61, 20_memory.md R86). -/
def readValue (r : Reg) (s : State) : Word :=
  match r with
  | .id => s.cfg.idValue
  | .ctrl => ctrlWord s
  | .status => statusWord s
  | .cmd => 0
  | .src => s.src
  | .dst => s.dst
  | .len => s.len
  | .key _ => 0
  | .ctr j => quadGet s.ctr j
  | .ctrw j => quadGet s.ctrw j
  | .reserved => 0
  | .data m => s.data.readWord m

/-- The reads refused while busy (20_memory.md R92). -/
def readRefusedWhenBusy : Reg → Bool
  | .id => false
  | .ctrl => false
  | .status => false
  | .cmd => false
  | .src => false
  | .dst => false
  | .len => false
  | .key _ => false
  | .ctr _ => false
  | .ctrw _ => true
  | .reserved => false
  | .data _ => true

/-- The state after the transaction's response is on the bus. -/
def respond (rdata : Option Word) (err : Bool) (s : State) : State := { s with resp := some ⟨rdata, err⟩ }

/-- An accepted read (R41, 20_memory.md R92): a refused one answers 0 without an error and sets ACCERR. -/
def readReg (r : Reg) (s : State) : State :=
  if busy s && readRefusedWhenBusy r then refuseAccess (respond (some 0) false s)
  else respond (some (readValue r s)) false s

/-! ### Writes -/

/-- The writes refused while busy (20_memory.md R92). -/
def writeRefusedWhenBusy : Reg → Bool
  | .id => false
  | .ctrl => false
  | .status => false
  | .cmd => true
  | .src => true
  | .dst => true
  | .len => true
  | .key _ => true
  | .ctr _ => true
  | .ctrw _ => false
  | .reserved => false
  | .data _ => true

/-- A write to CTRL (10_state.md R45, R46): IE is stored; SRST = 1 then performs the soft reset, which leaves IE 0. -/
def writeCtrl (v : Word) (s : State) : State :=
  if v.getLsbD 1 then softReset (writeIe v s) else writeIe v s

/-- `start(w)` (60_exceptions.md R207): decode, then the command's own step. -/
def writeCmd (w : Word) (s : State) : Host.Outcome State Fault Refusal :=
  match decode w with
  | .ok i => exec i s
  | .error _ => .next (commandError .badCmd s)

/-- A write that is not refused (R41 to R61, 20_memory.md R86). -/
def storeReg (r : Reg) (v : Word) (s : State) : Host.Outcome State Fault Refusal :=
  match r with
  | .id => .next s
  | .ctrl => .next (writeCtrl v s)
  | .status => .next (writeStatus v s)
  | .cmd => writeCmd v s
  | .src => .next { s with src := v }
  | .dst => .next { s with dst := v }
  | .len => .next { s with len := v }
  | .key j => .next { s with key := quadSet s.key v j }
  | .ctr j => .next { s with ctr := quadSet s.ctr v j }
  | .ctrw _ => .next s
  | .reserved => .next s
  | .data m => .next { s with data := s.data.writeWord m v }

/-- An accepted write: answered without an error, refused or performed (20_memory.md R92). -/
def writeReg (r : Reg) (v : Word) (s : State) : Host.Outcome State Fault Refusal :=
  if busy s && writeRefusedWhenBusy r then .next (refuseAccess (respond none false s))
  else storeReg r v (respond none false s)

/-! ### Transactions -/

/-- A bus error (20_memory.md R82): error response, data 0, no state change. -/
def busError (s : State) : State := respond (some 0) true s

/-- A transaction presented while `rst_n` is low (70_reset_and_hazards.md R230): no effect, the response free
(log 6). -/
def respondInReset (t : Txn) (s : State) : State :=
  match t with
  | .read _ _ => { respond (some (Config.freeWord s.draws 0)) (Config.freeFlag s.draws) s with draws := s.draws + 1 }
  | .write _ _ _ => { respond none (Config.freeFlag s.draws) s with draws := s.draws + 1 }

/-- A host transaction (10_state.md R31). The checks of 20_memory.md R82 come before the busy check. -/
def transact (t : Txn) (s : State) : Host.Outcome State Fault Refusal :=
  if !s.rstN then .next (respondInReset t s)
  else if !t.wf s.cfg then .next (busError s)
  else
    match t with
    | .read off _ => .next (readReg (regAt off) s)
    | .write off _ v => writeReg (regAt off) v s

/-! ### The engine and the other inputs -/

/-- The engine's step (70_reset_and_hazards.md R250): enabled exactly when a command is running and the block is not
held in reset; otherwise the block waits. -/
def engineStep (s : State) : Host.Outcome State Fault Refusal :=
  match s.rstN, s.phase with
  | true, .running op => exec op s
  | true, .idle => .next s
  | false, _ => .next s

/-- One input. -/
def takeInput (i : Input) (s : State) : Host.Outcome State Fault Refusal :=
  match i with
  | .bus t => transact t s
  | .engine => engineStep s
  | .rstLow => .next (powerOnReset s)
  | .rstHigh => .next { s with rstN := true }

/-- One step: the next input, or the engine when no input is left (log 8). -/
def nextStep (s : State) : Host.Outcome State Fault Refusal :=
  match s.inputs with
  | [] => engineStep s
  | i :: rest => takeInput i { s with inputs := rest }

/-- The block ready to start a command, with the write of `w` to CMD as its next input (log 14). -/
def withCommand (w : Word) (s : State) : State :=
  { s with
    phase := .idle
    rstN := true
    inputs := .bus (.write cmdOffset .bits32 w) :: s.inputs }

end Sys2Proof.Machine
end

