-- ==== Sys2Proof/Machine/HostProgram.lean ====
section
/-! DEFINITION. The host-program notation (30_encoding.md R117 to R119) as lists of inputs. Notation only. -/

namespace Sys2Proof.Machine

/-- `WR off, v` (R117). -/
def wr (off : Nat) (v : Word) : Input := .bus (.write off .bits32 v)

/-- `RD off` (R117). -/
def rd (off : Nat) : Input := .bus (.read off .bits32)

/-- `WAIT` (R117): polls of STATUS until BUSY reads 0. How many polls see BUSY = 1 is not fixed: `polls` of them come
before the completion, and one after it (log 20). -/
def waitDone (polls : Nat) : List Input := List.replicate polls (rd 0x008) ++ [.engine, rd 0x008]

/-- A command mnemonic alone: the write of its command word (R118). -/
def commandWrite (i : Instr) : Input := wr cmdOffset (encode i)

/-- `LDKEY k` (R119). -/
def ldKey (k : Block) : List Input :=
  [wr 0x020 (wordsLe k).w0, wr 0x024 (wordsLe k).w1, wr 0x028 (wordsLe k).w2, wr 0x02C (wordsLe k).w3]

/-- `LDCTR c` (R119). -/
def ldCtr (c : Block) : List Input :=
  [wr 0x030 (wordsLe c).w0, wr 0x034 (wordsLe c).w1, wr 0x038 (wordsLe c).w2, wr 0x03C (wordsLe c).w3]

/-- `LDDATA off, b` (R119): one word write for each four bytes, the last word completed with zero bytes. -/
def ldData (off : Nat) : List Byte → List Input
  | [] => []
  | b0 :: b1 :: b2 :: b3 :: rest => wr (0x1000 + off) (le32 b0 b1 b2 b3) :: ldData (off + 4) rest
  | [b0, b1, b2] => [wr (0x1000 + off) (le32 b0 b1 b2 0)]
  | [b0, b1] => [wr (0x1000 + off) (le32 b0 b1 0 0)]
  | [b0] => [wr (0x1000 + off) (le32 b0 0 0 0)]

/-- `SETUP src, dst, len` (R119). -/
def setup (src dst len : Word) : List Input := [wr 0x010 src, wr 0x014 dst, wr 0x018 len]

/-- `RUN mnemonic` (R119). -/
def runInputs (i : Instr) (polls : Nat) : List Input := commandWrite i :: waitDone polls

/-- `CLRDONE` (R119). -/
def clrDone : Input := wr 0x008 0x00000002#32

end Sys2Proof.Machine
end

