-- ==== Sys2Proof/Machine/Step.lean ====
section
/-! DEFINITION. The step, and how a command is placed where the step takes its next one. -/

namespace Sys2Proof.Machine

/-- One step of the block: the next host input, or the engine's completion. -/
def step (s : State) : Host.Outcome State Fault Refusal := Sys2Proof.Machine.nextStep s

/-- The state whose very next step is the CMD write of the instruction of `nbits` bits `w`: the block takes its
"instruction" from the write transaction itself (20_memory.md R99), so the write stands at the head of the inputs, and
the block is idle and out of reset, which starting a command needs (log 14). -/
def State.withFetchWord (s : State) (nbits w : Nat) : State :=
  Sys2Proof.Machine.withCommand (tableWord nbits w) s

end Sys2Proof.Machine
end

