-- ==== Sys2Proof/Safety.lean ====
section
/-! DEFINITION. What a sound state of the block is, and the vocabulary the statements use. -/

namespace Sys2Proof.Machine

/-- What the block holds while `rst_n` is low (70_reset_and_hazards.md R230): every register at its reset value,
idle, no schedule, DATA untouched since the draw. -/
structure HeldInReset (s : State) : Prop where
  ie : s.ie = false
  done : s.done = false
  accerr : s.accerr = false
  err : s.err = .ok
  src : s.src = 0
  dst : s.dst = 0
  len : s.len = 0
  key : s.key = Quad.zero
  ctr : s.ctr = Quad.zero
  ctrw : s.ctrw = Quad.zero
  idle : s.phase = .idle
  noSchedule : s.schedValid = false
  noCells : s.data.cells = []

/-- The invariant of the block. It rules out the states no run from a reset reaches. -/
structure State.Inv (s : State) : Prop where
  /-- The parameters are legal (00_scope.md R9). -/
  cfgLegal : s.cfg.wf = true
  /-- DATA is in its canonical form and inside its size (10_state.md R66). -/
  dataCanonical : s.data.wf s.cfg.dataBytes
  /-- While a command runs DONE and ERR are 0 and the command still passes every check of 60_exceptions.md R207
  (R205, 20_memory.md R93). -/
  runningChecked : ∀ op, s.phase = .running op → s.done = false ∧ s.err = .ok ∧ checkCommand op s = none
  /-- NOSCHED stands only while no schedule exists (60_exceptions.md R204). -/
  noSchedErr : s.err = .noSched → s.schedValid = false
  /-- The block is held in reset while `rst_n` is low (70_reset_and_hazards.md R230). -/
  held : s.rstN = false → HeldInReset s

/-- The step answers a next state: it neither faults nor refuses. -/
def Goes (s : State) : Prop := ∃ t, step s = .next t

/-- `k` steps of the machine. -/
def run (k : Nat) (s : State) : Host.Outcome State Fault Refusal := Host.Core.run Sys2Proof.core k s

/-- The next thing at the ports is the transaction `t`, and `rest` follows. -/
def presents (s : State) (t : Txn) (rest : List Input) : Prop := s.rstN = true ∧ s.inputs = .bus t :: rest

/-- The engine's completion is what happens next: the draw falls here, or nothing else is left. -/
def engineNext (s : State) (rest : List Input) : Prop :=
  s.rstN = true ∧ (s.inputs = .engine :: rest ∨ s.inputs = [] ∧ rest = [])

/-- A write with CTRL.SRST = 1: a soft reset (10_state.md R46). -/
def isSoftReset (t : Txn) : Bool :=
  match t with
  | .read _ _ => false
  | .write off size v => off == 0x004 && size == .bits32 && v.getLsbD 1

/-- An input that resets the block: `rst_n` going low, or a soft reset (70_reset_and_hazards.md R230, R233). -/
def isReset (i : Input) : Bool :=
  match i with
  | .bus t => isSoftReset t
  | .engine => false
  | .rstLow => true
  | .rstHigh => false

/-- Both byte ranges of a data command lie inside DATA: the condition of 60_exceptions.md R203 for `n` bytes. -/
def inRange (s : State) (n : Nat) : Prop :=
  s.src.toNat + n ≤ s.cfg.dataBytes ∧ s.dst.toNat + n ≤ s.cfg.dataBytes

/-- No byte of the destination range is written before every source byte at or above it has been read: the ranges do
not overlap with the destination ahead. Holds for SRC = DST. -/
def noOverrun (s : State) (n : Nat) : Prop :=
  s.dst.toNat ≤ s.src.toNat ∨ s.src.toNat + n ≤ s.dst.toNat

/-- Every byte outside `[a, a+n)` reads in `d'` as in `d`. -/
def sameOutside (a n : Nat) (d d' : Memory) : Prop :=
  ∀ x, (x < a ∨ a + n ≤ x) → d'.readByte x = d.readByte x

/-- The block after a command's completion: `phase` IDLE and DONE (70_reset_and_hazards.md R250), the given schedule,
working counter and DATA, everything else as before. -/
def completed (s : State) (rk : RoundKeys) (valid : Bool) (ctrw : Quad) (data : Memory) : State :=
  { s with rk := rk, schedValid := valid, ctrw := ctrw, data := data, phase := .idle, done := true }

end Sys2Proof.Machine
end

