-- ==== Sys2Proof/Certificates/Slice0/Obligations.lean ====
section
/-! DEFINITION. The statements for the provers, from the numbered rules of spec/. -/

open Sys2Proof Sys2Proof.Machine

/-! ## Encoding -/

/-- 30_encoding.md R111, R112: word by word, which command each decodes to; every other word decodes to none. -/
def Obligations.OnlySevenWordsDecode : Prop :=
  ∀ w : Word,
    (decode w = .ok .keysched ↔ w = 0x00000001#32) ∧ (decode w = .ok .encBlock ↔ w = 0x00000002#32) ∧
    (decode w = .ok .decBlock ↔ w = 0x00000003#32) ∧ (decode w = .ok .ecbEnc ↔ w = 0x00000004#32) ∧
    (decode w = .ok .ecbDec ↔ w = 0x00000005#32) ∧ (decode w = .ok .ctrEnc ↔ w = 0x00000006#32) ∧
    (decode w = .ok .ctrDec ↔ w = 0x00000007#32) ∧
    ((∀ i, decode w ≠ .ok i) ↔ ¬(1 ≤ w.toNat ∧ w.toNat ≤ 7))

/-- Decode and encode agree on every well-formed command, as bytes of the little-endian bus. -/
def Obligations.DecodeOfEncodeIsTheCommand : Prop :=
  ∀ (i : Instr) (rest : List Byte), i.wf = true → decodeBytes (wordBytes (encode i) ++ rest) = .ok (i, rest)

/-- The seven words of spec/opcode_table.json, as that file numbers their bits. -/
def Obligations.TableWordsDecode : Prop :=
  decodeTableWord 32 1 = some .keysched ∧ decodeTableWord 32 2 = some .encBlock ∧
  decodeTableWord 32 3 = some .decBlock ∧ decodeTableWord 32 4 = some .ecbEnc ∧
  decodeTableWord 32 5 = some .ecbDec ∧ decodeTableWord 32 6 = some .ctrEnc ∧ decodeTableWord 32 7 = some .ctrDec

/-! ## A step runs the command -/

/-- A CMD write of a word that decodes to `i`, while idle: the step is `exec i`, the write answered without an error. -/
def Obligations.StepRunsTheWrittenCommand : Prop :=
  ∀ (s : State) (w : Word) (i : Instr) (rest : List Input),
    s.phase = .idle → presents s (.write 0x00C .bits32 w) rest → decode w = .ok i →
    step s = exec i { s with inputs := rest, resp := some ⟨none, false⟩ }

/-- 70_reset_and_hazards.md R250: the engine's step is enabled exactly while a command runs, and is that command's
`exec`. Where the step falls is the input list's, the model's choice (log 8). -/
def Obligations.StepRunsTheRunningCommand : Prop :=
  ∀ (s : State) (rest : List Input), engineNext s rest →
    (∀ op, s.phase = .running op → step s = exec op { s with inputs := rest }) ∧
    (s.phase = .idle → step s = .next { s with inputs := rest })

/-! ## Starting a command -/

/-- 60_exceptions.md R201: a word with a bit of `w[31:4]` set, or with `w[3:0]` 0 or 8 to 15, is BADCMD; only DONE and
ERR change (R206; and the write is answered). -/
def Obligations.IllegalWordIsBadcmd : Prop :=
  ∀ (s : State) (w : Word) (rest : List Input),
    s.phase = .idle → presents s (.write 0x00C .bits32 w) rest →
    w.extractLsb' 4 28 ≠ 0 ∨ w.extractLsb' 0 4 = 0 ∨ 8 ≤ (w.extractLsb' 0 4).toNat →
    step s = .next { s with inputs := rest, resp := some ⟨none, false⟩, done := true, err := .badCmd }

/-- 60_exceptions.md R205: when the checks pass, the write sets RUNNING(op), BUSY, DONE 0, ERR 0 and nothing else. The
conditions are those of R202, R203, R204 written out. -/
def Obligations.PassingCommandIsAccepted : Prop :=
  ∀ s : State, s.phase = .idle →
    exec .keysched s = .next { s with phase := .running .keysched, done := false, err := .ok } ∧
    (∀ op, op = .encBlock ∨ op = .decBlock → inRange s 16 → s.schedValid = true →
      exec op s = .next { s with phase := .running op, done := false, err := .ok }) ∧
    (∀ op, op = .ecbEnc ∨ op = .ecbDec → s.len.toNat % 16 = 0 → inRange s s.len.toNat →
      exec op s = .next { s with phase := .running op, done := false, err := .ok }) ∧
    (∀ op, op = .ctrEnc ∨ op = .ctrDec → inRange s s.len.toNat →
      exec op s = .next { s with phase := .running op, done := false, err := .ok })

/-- 60_exceptions.md R202: LENGTH for the ECB commands, whatever SRC and DST are, and for no other command. -/
def Obligations.EcbLengthIsCheckedFirst : Prop :=
  ∀ (s : State) (op : Instr), s.phase = .idle →
    (op = .ecbEnc ∨ op = .ecbDec →
      (s.len.toNat % 16 ≠ 0 → exec op s = .next { s with done := true, err := .length }) ∧
      (s.len.toNat % 16 = 0 → ∃ t, exec op s = .next t ∧ t.err ≠ .length)) ∧
    (op ∈ [Instr.keysched, .encBlock, .decBlock, .ctrEnc, .ctrDec] → ∃ t, exec op s = .next t ∧ t.err ≠ .length)

/-- 60_exceptions.md R203: RANGE, with sums over the naturals; `n` is 16 for the block commands and LEN for the mode
commands. A range that ends at DATA_BYTES passes, and KEYSCHED has no range check. -/
def Obligations.RangeIsReported : Prop :=
  ∀ (s : State), s.phase = .idle →
    (∃ t, exec .keysched s = .next t ∧ t.err ≠ .range) ∧
    (∀ op, op = .encBlock ∨ op = .decBlock → inRange s 16 → ∃ t, exec op s = .next t ∧ t.err ≠ .range) ∧
    (∀ op, op ∈ [Instr.ecbEnc, .ecbDec, .ctrEnc, .ctrDec] → inRange s s.len.toNat →
      ∃ t, exec op s = .next t ∧ t.err ≠ .range) ∧
    (∀ op, op = .encBlock ∨ op = .decBlock → ¬ inRange s 16 →
      exec op s = .next { s with done := true, err := .range }) ∧
    (∀ op, op = .ecbEnc ∨ op = .ecbDec → s.len.toNat % 16 = 0 → ¬ inRange s s.len.toNat →
      exec op s = .next { s with done := true, err := .range }) ∧
    (∀ op, op = .ctrEnc ∨ op = .ctrDec → ¬ inRange s s.len.toNat →
      exec op s = .next { s with done := true, err := .range })

/-- 60_exceptions.md R204: NOSCHED, once the ranges are right. -/
def Obligations.BlockCommandNeedsASchedule : Prop :=
  ∀ (s : State) (op : Instr), s.phase = .idle → op = .encBlock ∨ op = .decBlock → inRange s 16 →
    s.schedValid = false → exec op s = .next { s with done := true, err := .noSched }

/-- 60_exceptions.md R207: one CMD write, check by check. The first that fails is reported and nothing but DONE, ERR
and the response changes; when none fails the command is accepted. -/
def Obligations.ChecksRunInOrder : Prop :=
  ∀ (s : State) (w : Word) (rest : List Input), s.phase = .idle → presents s (.write 0x00C .bits32 w) rest →
    ((∀ op, decode w ≠ .ok op) →
      step s = .next { s with inputs := rest, resp := some ⟨none, false⟩, done := true, err := .badCmd }) ∧
    (∀ op, decode w = .ok op → ∀ n, n = (if op = .encBlock ∨ op = .decBlock then 16 else s.len.toNat) →
      ((op = .ecbEnc ∨ op = .ecbDec) ∧ s.len.toNat % 16 ≠ 0 →
        step s = .next { s with inputs := rest, resp := some ⟨none, false⟩, done := true, err := .length }) ∧
      (¬((op = .ecbEnc ∨ op = .ecbDec) ∧ s.len.toNat % 16 ≠ 0) → op ≠ .keysched → ¬ inRange s n →
        step s = .next { s with inputs := rest, resp := some ⟨none, false⟩, done := true, err := .range }) ∧
      ((op = .encBlock ∨ op = .decBlock) → inRange s n → s.schedValid = false →
        step s = .next { s with inputs := rest, resp := some ⟨none, false⟩, done := true, err := .noSched }) ∧
      (¬((op = .ecbEnc ∨ op = .ecbDec) ∧ s.len.toNat % 16 ≠ 0) → (op = .keysched ∨ inRange s n) →
        ¬((op = .encBlock ∨ op = .decBlock) ∧ s.schedValid = false) →
        step s = .next { s with
          inputs := rest, resp := some ⟨none, false⟩, phase := .running op, done := false, err := .ok }))

/-- 60_exceptions.md R208, of the command itself: while another command runs it is refused, and only ACCERR is set. That
`exec` says so is the model's choice (log 10): the step asks `exec` only for an accepted word or the running command. -/
def Obligations.CommandIsRefusedWhileAnotherRuns : Prop :=
  ∀ (s : State) (op other : Instr), s.phase = .running other → other ≠ op →
    exec op s = .next { s with accerr := true }

/-- 70_reset_and_hazards.md R245: an idle CMD write leaves either a running command with DONE = 0 or an error with
DONE = 1. -/
def Obligations.CmdWriteLeavesOneOfTwoStates : Prop :=
  ∀ (s : State) (w : Word) (rest : List Input),
    s.phase = .idle → presents s (.write 0x00C .bits32 w) rest →
    ∃ t, step s = .next t ∧
      ((∃ op, t.phase = .running op ∧ decode w = .ok op ∧ t.done = false ∧ t.err = .ok) ∨
       (t.phase = .idle ∧ t.done = true ∧ t.err ≠ .ok))

/-! ## Completing a command -/

/-- 40_primitive.md R150: KEYSCHED completes in every state it runs in: RK and SCHED_VALID, idle, DONE. -/
def Obligations.KeyschedCompletes : Prop :=
  ∀ s : State, s.phase = .running .keysched →
    exec .keysched s = .next (completed s (deriveSchedule (bytesLe s.key)) true s.ctrw s.data)

/-- 40_primitive.md R151: ENC_BLOCK completes: the 16 bytes at DST are the encryption of the 16 at SRC under the
stored schedule; everything else is as before. -/
def Obligations.EncBlockCompletes : Prop :=
  ∀ s : State, s.phase = .running .encBlock → inRange s 16 →
    ∃ d, exec .encBlock s = .next (completed s s.rk s.schedValid s.ctrw d) ∧
      d.read s.dst.toNat 16 = encryptBlock s.rk (s.data.read s.src.toNat 16) ∧
      sameOutside s.dst.toNat 16 s.data d

/-- 40_primitive.md R152: DEC_BLOCK completes, with the decryption. -/
def Obligations.DecBlockCompletes : Prop :=
  ∀ s : State, s.phase = .running .decBlock → inRange s 16 →
    ∃ d, exec .decBlock s = .next (completed s s.rk s.schedValid s.ctrw d) ∧
      d.read s.dst.toNat 16 = decryptBlock s.rk (s.data.read s.src.toNat 16) ∧
      sameOutside s.dst.toNat 16 s.data d

/-- 41_modes.md R180, R181 with the order of 20_memory.md R98: there is a sequence of buffers, one per block, each got
from the one before by reading a block at SRC + 16k and writing its transform at DST + 16k, and the last is DATA. Holds
for every overlap. The schedule is derived from KEY and kept (R175). -/
def Obligations.EcbCompletesBlockByBlock : Prop :=
  ∀ (s : State) (op : Instr) (f : Block → Block),
    (op = .ecbEnc ∧ f = encryptBlock (deriveSchedule (bytesLe s.key)) ∨
     op = .ecbDec ∧ f = decryptBlock (deriveSchedule (bytesLe s.key))) →
    s.phase = .running op → s.len.toNat % 16 = 0 → inRange s s.len.toNat →
    ∃ D : Nat → Memory, D 0 = s.data ∧
      (∀ k, k < s.len.toNat / 16 →
        (D (k + 1)).read (s.dst.toNat + 16 * k) 16 = f ((D k).read (s.src.toNat + 16 * k) 16) ∧
        sameOutside (s.dst.toNat + 16 * k) 16 (D k) (D (k + 1))) ∧
      exec op s = .next (completed s (deriveSchedule (bytesLe s.key)) true s.ctrw (D (s.len.toNat / 16)))

/-- 41_modes.md R185: without an overrun, each output block is the transform of its own input block and nothing else,
and no byte outside the destination changes. -/
def Obligations.EcbBlocksAreIndependent : Prop :=
  ∀ (s : State) (op : Instr) (f : Block → Block),
    (op = .ecbEnc ∧ f = encryptBlock (deriveSchedule (bytesLe s.key)) ∨
     op = .ecbDec ∧ f = decryptBlock (deriveSchedule (bytesLe s.key))) →
    s.phase = .running op → s.len.toNat % 16 = 0 → inRange s s.len.toNat → noOverrun s s.len.toNat →
    ∃ d, exec op s = .next (completed s (deriveSchedule (bytesLe s.key)) true s.ctrw d) ∧
      (∀ k, k < s.len.toNat / 16 →
        d.read (s.dst.toNat + 16 * k) 16 = f (s.data.read (s.src.toNat + 16 * k) 16)) ∧
      sameOutside s.dst.toNat s.len.toNat s.data d

/-- 41_modes.md R182, R183 with the order of 20_memory.md R98: the counters run from C0 up by one modulo 2^128, each
chunk is the input XOR the encrypted counter, the final partial chunk uses only the first bytes of its keystream block
and does not increment, and CTRW ends as C0 + LEN div 16 (R176). Holds for every overlap and every LEN. -/
def Obligations.CtrCompletesChunkByChunk : Prop :=
  ∀ (s : State) (op : Instr), op = .ctrEnc ∨ op = .ctrDec → s.phase = .running op → inRange s s.len.toNat →
    ∃ (D : Nat → Memory) (C : Nat → Block) (d : Memory),
      D 0 = s.data ∧ C 0 = bytesLe s.ctr ∧
      (∀ k, be128 (C k) = (be128 (bytesLe s.ctr) + k) % 2 ^ 128) ∧
      (∀ k, k < s.len.toNat / 16 →
        (D (k + 1)).read (s.dst.toNat + 16 * k) 16 =
          xorBytes ((D k).read (s.src.toNat + 16 * k) 16)
            (encryptBlock (deriveSchedule (bytesLe s.key)) (C k)) ∧
        sameOutside (s.dst.toNat + 16 * k) 16 (D k) (D (k + 1))) ∧
      d.read (s.dst.toNat + 16 * (s.len.toNat / 16)) (s.len.toNat % 16) =
        xorBytes ((D (s.len.toNat / 16)).read (s.src.toNat + 16 * (s.len.toNat / 16)) (s.len.toNat % 16))
          (blockPrefix (s.len.toNat % 16)
            (encryptBlock (deriveSchedule (bytesLe s.key)) (C (s.len.toNat / 16)))) ∧
      sameOutside (s.dst.toNat + 16 * (s.len.toNat / 16)) (s.len.toNat % 16) (D (s.len.toNat / 16)) d ∧
      exec op s = .next (completed s (deriveSchedule (bytesLe s.key)) true (wordsLe (C (s.len.toNat / 16))) d)

/-- 41_modes.md R186: without an overrun, output XOR input is, byte by byte, the keystream KS(C0) ++ KS(C0+1) ++ …,
whatever the input. -/
def Obligations.CtrOutputXorInputIsTheKeystream : Prop :=
  ∀ (s : State) (op : Instr), op = .ctrEnc ∨ op = .ctrDec → s.phase = .running op → inRange s s.len.toNat →
    noOverrun s s.len.toNat →
    ∃ t, exec op s = .next t ∧
      ∀ x, x < s.len.toNat → ∀ c : Block, be128 c = (be128 (bytesLe s.ctr) + x / 16) % 2 ^ 128 →
        t.data.readByte (s.dst.toNat + x) ^^^ s.data.readByte (s.src.toNat + x) =
          (encryptBlock (deriveSchedule (bytesLe s.key)) c).getD (x % 16) 0

/-- 41_modes.md R183: CTR_DEC and CTR_ENC differ in nothing but the opcode RUNNING holds. -/
def Obligations.CtrDecryptIsCtrEncrypt : Prop :=
  ∀ s : State,
    exec .ctrDec { s with phase := .running .ctrDec } = exec .ctrEnc { s with phase := .running .ctrEnc } ∧
    (s.phase = .idle → ∃ t u, exec .ctrDec s = .next t ∧ exec .ctrEnc s = .next u ∧
      ((t = u ∧ t.phase = .idle) ∨
       (t.phase = .running .ctrDec ∧ u.phase = .running .ctrEnc ∧ { t with phase := u.phase } = u)))

/-- 41_modes.md R176: the working counter after a CTR command. -/
def Obligations.WorkingCounterAdvances : Prop :=
  ∀ (s : State) (op : Instr), op = .ctrEnc ∨ op = .ctrDec → s.phase = .running op → inRange s s.len.toNat →
    ∃ t, exec op s = .next t ∧
      be128 (bytesLe t.ctrw) = (be128 (bytesLe s.ctr) + s.len.toNat / 16) % 2 ^ 128

/-- 41_modes.md R178: with LEN = 0 every mode command passes its checks when SRC and DST are at most DATA_BYTES,
derives the schedule, touches no DATA, and for CTR leaves CTRW = C0. -/
def Obligations.ZeroLengthTouchesNoData : Prop :=
  ∀ (s : State) (op : Instr), op ∈ [Instr.ecbEnc, .ecbDec, .ctrEnc, .ctrDec] → s.len = 0 → inRange s 0 →
    (s.phase = .idle → exec op s = .next { s with phase := .running op, done := false, err := .ok }) ∧
    (s.phase = .running op →
      exec op s = .next (completed s (deriveSchedule (bytesLe s.key)) true
        (if op = .ctrEnc ∨ op = .ctrDec then s.ctr else s.ctrw) s.data))

/-- 41_modes.md R184, ECB half: decrypting what was encrypted returns the plaintext. `u` is any state in which ECB_DEC
runs on that output under the same key, with a destination of its own. -/
def Obligations.EcbRoundTrip : Prop :=
  ∀ s t u v : State, s.phase = .running .ecbEnc → s.len.toNat % 16 = 0 → inRange s s.len.toNat →
    noOverrun s s.len.toNat → exec .ecbEnc s = .next t →
    u.phase = .running .ecbDec → u.data = t.data → u.key = s.key → u.len = s.len → u.src = s.dst →
    inRange u u.len.toNat → noOverrun u u.len.toNat → exec .ecbDec u = .next v →
    v.data.read u.dst.toNat s.len.toNat = s.data.read s.src.toNat s.len.toNat

/-- 41_modes.md R184, CTR half: a second CTR command on the output, under the same key and counter, returns the
plaintext, for every length. -/
def Obligations.CtrRoundTrip : Prop :=
  ∀ (s t u v : State) (op op' : Instr), op = .ctrEnc ∨ op = .ctrDec → op' = .ctrEnc ∨ op' = .ctrDec →
    s.phase = .running op → inRange s s.len.toNat → noOverrun s s.len.toNat → exec op s = .next t →
    u.phase = .running op' → u.data = t.data → u.key = s.key → u.ctr = s.ctr → u.len = s.len → u.src = s.dst →
    inRange u u.len.toNat → noOverrun u u.len.toNat → exec op' u = .next v →
    v.data.read u.dst.toNat s.len.toNat = s.data.read s.src.toNat s.len.toNat

/-- 30_encoding.md R113, the "writes" column, while the command runs: what each command leaves unchanged. RK and
SCHED_VALID are written only by KEYSCHED and the mode commands, CTRW only by CTR, DATA only inside the destination
range, CTR and every other register by none. -/
def Obligations.CommandWritesOnlyItsColumn : Prop :=
  ∀ (s t : State) (op : Instr), s.phase = .running op → exec op s = .next t →
    t.cfg = s.cfg ∧ t.ie = s.ie ∧ t.accerr = s.accerr ∧ t.err = s.err ∧ t.src = s.src ∧ t.dst = s.dst ∧
    t.len = s.len ∧ t.key = s.key ∧ t.ctr = s.ctr ∧ t.rstN = s.rstN ∧ t.resp = s.resp ∧ t.draws = s.draws ∧
    t.inputs = s.inputs ∧
    (op ∈ [Instr.encBlock, .decBlock] → t.rk = s.rk ∧ t.schedValid = s.schedValid) ∧
    (op ∈ [Instr.keysched, .encBlock, .decBlock, .ecbEnc, .ecbDec] → t.ctrw = s.ctrw) ∧
    (op = .keysched → t.data = s.data) ∧
    (op ∈ [Instr.encBlock, .decBlock] → sameOutside s.dst.toNat 16 s.data t.data) ∧
    (op ∈ [Instr.ecbEnc, .ecbDec, .ctrEnc, .ctrDec] → sameOutside s.dst.toNat s.len.toNat s.data t.data)

/-! ## The primitive -/

/-- 40_primitive.md R130 to R134: subtraction undoes addition, XOR undoes itself, the rotations undo each other, and
composed rotations are one. -/
def Obligations.WordOperatorsInvert : Prop :=
  ∀ (a b : Word) (m n : Nat),
    sub32 (add32 a b) b = a ∧ add32 (sub32 a b) b = a ∧ (a ^^^ b) ^^^ b = a ∧
    ror32 (rol32 a n) n = a ∧ rol32 (ror32 a n) n = a ∧ rol32 (rol32 a m) n = rol32 a (m + n)

/-- 40_primitive.md R135 to R141: the T words start as the little-endian key words, each round updates each with its
own constant and rotation, and round r's six words are placed T0, T1, T2, T1, T3, T1. The constants are the spec's
general-knowledge values (R135, log 21). -/
def Obligations.ScheduleFollowsTheRounds : Prop :=
  ∀ k : Block, ∃ T : Nat → Quad, T 0 = wordsLe k ∧
    ∀ r, r < 24 →
      (∃ d, d = (if r % 4 = 0 then 0xc3efe9db#32 else if r % 4 = 1 then 0x44626b02#32
          else if r % 4 = 2 then 0x79e27c8a#32 else 0x78df30ec#32) ∧
        T (r + 1) = ⟨rol32 ((T r).w0 + rol32 d r) 1, rol32 ((T r).w1 + rol32 d (r + 1)) 3,
          rol32 ((T r).w2 + rol32 d (r + 2)) 6, rol32 ((T r).w3 + rol32 d (r + 3)) 11⟩) ∧
      (deriveSchedule k).getD (6 * r) 0 = (T (r + 1)).w0 ∧
      (deriveSchedule k).getD (6 * r + 1) 0 = (T (r + 1)).w1 ∧
      (deriveSchedule k).getD (6 * r + 2) 0 = (T (r + 1)).w2 ∧
      (deriveSchedule k).getD (6 * r + 3) 0 = (T (r + 1)).w1 ∧
      (deriveSchedule k).getD (6 * r + 4) 0 = (T (r + 1)).w3 ∧
      (deriveSchedule k).getD (6 * r + 5) 0 = (T (r + 1)).w1

/-- 40_primitive.md R147, which the spec marks as derived from R142 and R145: decryption and encryption undo each other
under every 144 words. -/
def Obligations.DecryptInvertsEncrypt : Prop :=
  ∀ (rk : RoundKeys) (b : Block),
    decryptBlock rk (encryptBlock rk b) = b ∧ encryptBlock rk (decryptBlock rk b) = b

/-- 40_primitive.md R148, which the spec marks as general knowledge and derived (log 21): the in-place four-round form
computes the same function. -/
def Obligations.UnrolledFormIsTheCipher : Prop :=
  ∀ (rk : RoundKeys) (p : Block), encryptBlockUnrolled rk p = encryptBlock rk p

/-- The known-answer test (95_test_vectors.md S1, V1), a closed instance of R141, R144 and R146. -/
def Obligations.KnownAnswerTest : Prop :=
  encryptBlock (deriveSchedule (bytesLe ⟨0x3c2d1e0f#32, 0x78695a4b#32, 0xb4a59687#32, 0xf0e1d2c3#32⟩))
      (bytesLe ⟨0x13121110#32, 0x17161514#32, 0x1b1a1918#32, 0x1f1e1d1c#32⟩) =
    bytesLe ⟨0x354ec89f#32, 0x18c6c628#32, 0xa7c73255#32, 0xfd8b6404#32⟩

/-- 41_modes.md R171, which the spec marks as derived from R170: the byte loop adds one to the big-endian integer,
modulo 2^128. -/
def Obligations.CounterIncrementAddsOne : Prop :=
  ∀ (c : Block) (k : Nat), be128 (incCtr^[k] c) = (be128 c + k) % 2 ^ 128

/-! ## The slave port -/

/-- 20_memory.md R82: a transaction of another size, misaligned or beyond the window answers an error and data 0 and
changes no state, busy or not; no other transaction is answered with an error. -/
def Obligations.BusErrorChangesNothing : Prop :=
  ∀ (s : State) (x : Txn) (rest : List Input), presents s x rest →
    (x.size ≠ .bits32 ∨ x.off % 4 ≠ 0 ∨ 0x1000 + s.cfg.dataBytes ≤ x.off →
      step s = .next { s with inputs := rest, resp := some ⟨some 0, true⟩ }) ∧
    (x.size = .bits32 → x.off % 4 = 0 → x.off < 0x1000 + s.cfg.dataBytes →
      ∃ t data, step s = .next t ∧ t.resp = some ⟨data, false⟩)

/-- 20_memory.md R92, refusals: while busy a read of CTRW or DATA answers 0 and sets ACCERR, and a write of CMD, SRC,
DST, LEN, KEY, CTR or DATA is ignored and sets ACCERR; nothing else changes. -/
def Obligations.BusyAccessIsRefused : Prop :=
  ∀ (s : State) (op : Instr) (off : Nat) (rest : List Input), s.phase = .running op → off % 4 = 0 →
    off < 0x1000 + s.cfg.dataBytes →
    (presents s (.read off .bits32) rest → (0x040 ≤ off ∧ off < 0x050 ∨ 0x1000 ≤ off) →
      step s = .next { s with inputs := rest, resp := some ⟨some 0, false⟩, accerr := true }) ∧
    (∀ v, presents s (.write off .bits32 v) rest →
      (0x00C ≤ off ∧ off < 0x01C ∨ 0x020 ≤ off ∧ off < 0x040 ∨ 0x1000 ≤ off) →
      step s = .next { s with inputs := rest, resp := some ⟨none, false⟩, accerr := true })

/-- 20_memory.md R92 and 10_state.md R40 to R61: what every offset of the register page reads, idle or busy, except the
CTRW reads that are refused while busy. A read changes nothing but the response. -/
def Obligations.RegisterPageReads : Prop :=
  ∀ (s : State) (off : Nat) (rest : List Input), presents s (.read off .bits32) rest → off % 4 = 0 → off < 0x1000 →
    (s.phase = .idle ∨ ¬(0x040 ≤ off ∧ off < 0x050)) →
    ∃ v, step s = .next { s with inputs := rest, resp := some ⟨some v, false⟩ } ∧
      (off = 0x000 → v = s.cfg.idValue) ∧
      (off = 0x004 → v = if s.ie then 1 else 0) ∧
      (off = 0x008 → v = statusWord s) ∧
      (off = 0x010 → v = s.src) ∧ (off = 0x014 → v = s.dst) ∧ (off = 0x018 → v = s.len) ∧
      (off = 0x030 → v = s.ctr.w0) ∧ (off = 0x034 → v = s.ctr.w1) ∧
      (off = 0x038 → v = s.ctr.w2) ∧ (off = 0x03C → v = s.ctr.w3) ∧
      (off = 0x040 → v = s.ctrw.w0) ∧ (off = 0x044 → v = s.ctrw.w1) ∧
      (off = 0x048 → v = s.ctrw.w2) ∧ (off = 0x04C → v = s.ctrw.w3) ∧
      (off = 0x00C ∨ off = 0x01C ∨ 0x020 ≤ off ∧ off < 0x030 ∨ 0x050 ≤ off → v = 0)

/-- 10_state.md R48 to R52: the named bits of what STATUS reads. -/
def Obligations.StatusWordLayout : Prop :=
  ∀ s : State,
    ((statusWord s).getLsbD 0 = true ↔ ∃ op, s.phase = .running op) ∧
    (statusWord s).getLsbD 1 = s.done ∧ (statusWord s).getLsbD 2 = s.schedValid ∧
    (statusWord s).getLsbD 3 = s.accerr ∧
    ((statusWord s).extractLsb' 8 4).toNat =
      (match s.err with | .ok => 0 | .badCmd => 1 | .length => 2 | .range => 3 | .noSched => 4)

/-- 10_state.md R53: the reserved bits of STATUS read 0, and a write to STATUS, busy or not, clears DONE and ACCERR
where its bits 1 and 3 are set, and does nothing else. -/
def Obligations.StatusWriteClearsWhereOne : Prop :=
  ∀ (s : State) (rest : List Input),
    (presents s (.read 0x008 .bits32) rest →
      ∃ v, step s = .next { s with inputs := rest, resp := some ⟨some v, false⟩ } ∧
        v.extractLsb' 4 4 = 0 ∧ v.extractLsb' 12 20 = 0) ∧
    (∀ v, presents s (.write 0x008 .bits32 v) rest →
      step s = .next { s with
        inputs := rest, resp := some ⟨none, false⟩
        done := if v.getLsbD 1 then false else s.done
        accerr := if v.getLsbD 3 then false else s.accerr })

/-- 10_state.md R43, R55 to R58, R60, R61, 20_memory.md R92: what a write to the register page does, apart from CTRL,
STATUS and CMD. While idle the RW and WO registers take the value; ID, CTRW and the reserved offsets ignore it, idle or
busy. A KEY write leaves RK and SCHED_VALID as they are. -/
def Obligations.RegisterPageWrites : Prop :=
  ∀ (s : State) (off : Nat) (v : Word) (rest : List Input), presents s (.write off .bits32 v) rest →
    off % 4 = 0 → off < 0x1000 →
    (s.phase = .idle →
      (off = 0x010 → step s = .next { s with inputs := rest, resp := some ⟨none, false⟩, src := v }) ∧
      (off = 0x014 → step s = .next { s with inputs := rest, resp := some ⟨none, false⟩, dst := v }) ∧
      (off = 0x018 → step s = .next { s with inputs := rest, resp := some ⟨none, false⟩, len := v }) ∧
      (∀ j : Fin 4, off = 0x020 + 4 * j.val → ∃ q, quadGet q j = v ∧ (∀ i, i ≠ j → quadGet q i = quadGet s.key i) ∧
        step s = .next { s with inputs := rest, resp := some ⟨none, false⟩, key := q }) ∧
      (∀ j : Fin 4, off = 0x030 + 4 * j.val → ∃ q, quadGet q j = v ∧ (∀ i, i ≠ j → quadGet q i = quadGet s.ctr i) ∧
        step s = .next { s with inputs := rest, resp := some ⟨none, false⟩, ctr := q })) ∧
    (off = 0x000 ∨ off = 0x01C ∨ 0x040 ≤ off →
      step s = .next { s with inputs := rest, resp := some ⟨none, false⟩ })

/-- 20_memory.md R86: the DATA window, while idle. A read returns the little-endian word, a write sets its four bytes
and no other. -/
def Obligations.DataWindowIsLittleEndian : Prop :=
  ∀ (s : State) (m : Nat) (rest : List Input), s.phase = .idle → 4 * m < s.cfg.dataBytes →
    (presents s (.read (0x1000 + 4 * m) .bits32) rest →
      step s = .next { s with
        inputs := rest
        resp := some ⟨some (le32 (s.data.readByte (4 * m)) (s.data.readByte (4 * m + 1))
          (s.data.readByte (4 * m + 2)) (s.data.readByte (4 * m + 3))), false⟩ }) ∧
    (∀ v, presents s (.write (0x1000 + 4 * m) .bits32 v) rest →
      ∃ d, step s = .next { s with inputs := rest, resp := some ⟨none, false⟩, data := d } ∧
        (∀ i, i < 4 → d.readByte (4 * m + i) = v.extractLsb' (8 * i) 8) ∧ sameOutside (4 * m) 4 s.data d)

/-- 10_state.md R45: a CTRL write without SRST stores IE, busy or not, and does nothing else. -/
def Obligations.CtrlWriteStoresIe : Prop :=
  ∀ (s : State) (v : Word) (rest : List Input), presents s (.write 0x004 .bits32 v) rest → v.getLsbD 1 = false →
    step s = .next { s with inputs := rest, resp := some ⟨none, false⟩, ie := v.getLsbD 0 }

/-- 70_reset_and_hazards.md R233, 10_state.md R46: a CTRL write with SRST = 1 puts every register at its reset value
and aborts a running command, whatever IE is. DATA is unchanged when idle or when KEYSCHED ran; otherwise only bytes of
the destination range may change. RK is any value. That the write's response is kept is the model's choice
(log 13). -/
def Obligations.SoftResetResetsRegisters : Prop :=
  ∀ (s : State) (v : Word) (rest : List Input), presents s (.write 0x004 .bits32 v) rest → v.getLsbD 1 = true →
    ∃ rk d n, step s = .next
        { s with
          inputs := rest, resp := some ⟨none, false⟩, ie := false, done := false, accerr := false, err := .ok
          src := 0, dst := 0, len := 0, key := ⟨0, 0, 0, 0⟩, ctr := ⟨0, 0, 0, 0⟩, ctrw := ⟨0, 0, 0, 0⟩
          phase := .idle, schedValid := false, rk := rk, data := d, draws := n } ∧
      (s.phase = .idle → d = s.data) ∧ (s.phase = .running .keysched → d = s.data) ∧
      (s.phase = .running .encBlock ∨ s.phase = .running .decBlock → sameOutside s.dst.toNat 16 s.data d) ∧
      (∀ op, op ∈ [Instr.ecbEnc, .ecbDec, .ctrEnc, .ctrDec] → s.phase = .running op →
        sameOutside s.dst.toNat s.len.toNat s.data d)

/-! ## Reset -/

/-- 10_state.md R68, 70_reset_and_hazards.md R230: the block right after reset. RK and DATA, which R231 leaves open,
are not mentioned. -/
def Obligations.ResetStateHasTheResetValues : Prop :=
  State.reset.ie = false ∧ State.reset.done = false ∧ State.reset.accerr = false ∧ State.reset.err = .ok ∧
  State.reset.src = 0 ∧ State.reset.dst = 0 ∧ State.reset.len = 0 ∧ State.reset.key = ⟨0, 0, 0, 0⟩ ∧
  State.reset.ctr = ⟨0, 0, 0, 0⟩ ∧ State.reset.ctrw = ⟨0, 0, 0, 0⟩ ∧ State.reset.phase = .idle ∧
  State.reset.schedValid = false ∧ State.reset.cfg.idValue = 0x4C454131#32 ∧ irq State.reset = false ∧
  statusWord State.reset = 0

/-- 70_reset_and_hazards.md R230: when `rst_n` goes low every register takes its reset value and a running command is
abandoned; RK and DATA are any value. That `rst_n` falls between two steps is the model's choice (log 19). -/
def Obligations.PowerOnResetResetsRegisters : Prop :=
  ∀ (s : State) (rest : List Input), s.inputs = .rstLow :: rest →
    ∃ rk d n, step s = .next
      { s with
        inputs := rest, ie := false, done := false, accerr := false, err := .ok
        src := 0, dst := 0, len := 0, key := ⟨0, 0, 0, 0⟩, ctr := ⟨0, 0, 0, 0⟩, ctrw := ⟨0, 0, 0, 0⟩
        phase := .idle, schedValid := false, rk := rk, data := d, draws := n, rstN := false }

/-- 70_reset_and_hazards.md R230: while `rst_n` is low no transaction and no engine step has an effect; the response is
any value. -/
def Obligations.NothingHappensWhileHeldInReset : Prop :=
  ∀ (s : State) (rest : List Input), s.rstN = false →
    (∀ x, s.inputs = .bus x :: rest → ∃ r n, step s = .next { s with inputs := rest, resp := r, draws := n }) ∧
    (s.inputs = .engine :: rest → step s = .next { s with inputs := rest }) ∧
    (s.inputs = .rstHigh :: rest → step s = .next { s with inputs := rest, rstN := true })

/-! ## The whole machine -/

/-- The block right after reset is a sound state. -/
def Obligations.ResetStateIsSound : Prop := State.reset.Inv

/-- Every step keeps the invariant: legal parameters, DATA canonical and inside its size, a running command still
passing every check with DONE and ERR 0 (so STATUS never shows BUSY with DONE or an error, 95_test_vectors.md V13),
NOSCHED only without a schedule, reset values while held in reset. -/
def Obligations.EveryStepKeepsSoundness : Prop :=
  ∀ s t : State, s.Inv → step s = .next t → t.Inv

/-- 60_exceptions.md R209, R210: completion cannot fail, and no behaviour is stuck: from a sound state every step
answers a next state. -/
def Obligations.SoundStateNeverStops : Prop := ∀ s : State, s.Inv → Goes s

/-- 20_memory.md R95: only a completion and a reset take BUSY from 1 to 0. -/
def Obligations.OnlyCompletionOrResetEndsBusy : Prop :=
  ∀ (s t : State) (op : Instr), s.phase = .running op → step s = .next t → t.phase ≠ .running op →
    t.phase = .idle ∧
    ((∃ rest, engineNext s rest) ∨ s.inputs.head? = some .rstLow ∨
     ∃ x rest, presents s x rest ∧ isSoftReset x = true)

/-- 60_exceptions.md R212: DONE is set only by a completion and by a command error, and `irq` is IE AND DONE. -/
def Obligations.OnlyCompletionOrErrorSetsDone : Prop :=
  ∀ s t : State, step s = .next t →
    irq t = (t.ie && t.done) ∧
    (s.done = false → t.done = true →
      (∃ op rest, s.phase = .running op ∧ engineNext s rest ∧ t.phase = .idle) ∨
      (∃ w rest, s.phase = .idle ∧ presents s (.write 0x00C .bits32 w) rest ∧ t.err ≠ .ok ∧ t.phase = .idle))

/-- 10_state.md R63, R64: only a schedule derivation and a reset write RK, and SCHED_VALID is set by the derivation and
cleared by the reset alone. -/
def Obligations.OnlyDerivationOrResetWritesRk : Prop :=
  ∀ s t : State, step s = .next t → (t.rk ≠ s.rk ∨ t.schedValid ≠ s.schedValid) →
    (t.rk = deriveSchedule (bytesLe s.key) ∧ t.schedValid = true ∧ ∃ rest, engineNext s rest) ∨
    (t.schedValid = false ∧ t.phase = .idle ∧
      (s.inputs.head? = some .rstLow ∨ ∃ x rest, presents s x rest ∧ isSoftReset x = true))

/-- 20_memory.md R93: while a command runs, no transaction but a soft reset changes anything the command reads or
writes. -/
def Obligations.BusyFreezesWhatTheCommandUses : Prop :=
  ∀ (s : State) (op : Instr) (x : Txn) (rest : List Input), s.phase = .running op → presents s x rest →
    isSoftReset x = false →
    ∃ t, step s = .next t ∧ t.inputs = rest ∧ t.phase = s.phase ∧ t.rstN = true ∧ t.cfg = s.cfg ∧ t.src = s.src ∧
      t.dst = s.dst ∧ t.len = s.len ∧ t.key = s.key ∧ t.ctr = s.ctr ∧ t.ctrw = s.ctrw ∧ t.rk = s.rk ∧
      t.schedValid = s.schedValid ∧ t.data = s.data

/-- 20_memory.md R93: whatever the latency and whatever the host does meanwhile short of a reset, the command's result
is the one it has at acceptance. -/
def Obligations.LatencyDoesNotChangeTheResult : Prop :=
  ∀ (s u : State) (op : Instr) (xs : List Txn) (rest : List Input),
    s.rstN = true → s.phase = .running op → (∀ x ∈ xs, isSoftReset x = false) →
    s.inputs = xs.map .bus ++ .engine :: rest → exec op s = .next u →
    ∃ t, run (xs.length + 1) s = .next t ∧ t.phase = .idle ∧ t.done = true ∧ t.inputs = rest ∧ t.data = u.data ∧
      t.rk = u.rk ∧ t.schedValid = u.schedValid ∧ t.ctrw = u.ctrw

/-- 70_reset_and_hazards.md R250: a running command that no input resets completes. Within one step more than there are
inputs the block is idle with DONE, and DATA, RK, SCHED_VALID and CTRW hold the command's own effect, what `exec` of it
answers now. Whatever the inputs, resets among them, that many steps leave the block idle with no input left. That an
empty list lets the engine step is the model's form of the weak fairness R250 assumes (log 8). -/
def Obligations.EveryCommandCompletes : Prop :=
  ∀ s : State, s.Inv →
    (∀ op, s.phase = .running op → (∀ i ∈ s.inputs, isReset i = false) →
      ∃ u k t, exec op s = .next u ∧ k ≤ s.inputs.length + 1 ∧ run k s = .next t ∧ t.phase = .idle ∧ t.done = true ∧
        t.data = u.data ∧ t.rk = u.rk ∧ t.schedValid = u.schedValid ∧ t.ctrw = u.ctrw) ∧
    (∃ t, run (s.inputs.length + 1) s = .next t ∧ t.phase = .idle ∧ t.inputs = [])

/-- 60_exceptions.md R217: KEY0..KEY3 and RK cannot be read back: a read answers the same whatever they hold. -/
def Obligations.KeyAndScheduleCannotBeReadBack : Prop :=
  ∀ (s t : State) (off : Nat) (size : BusSize) (rest : List Input) (k : Quad) (rk : RoundKeys),
    presents s (.read off size) rest → step s = .next t →
    ∃ t', step { s with key := k, rk := rk } = .next t' ∧ t'.resp = t.resp

/-- 00_scope.md R9: the parameters are fixed, no step writes them; and every step takes at most one input off the list,
the model's own (log 8). -/
def Obligations.ParametersNeverChange : Prop :=
  ∀ s t : State, step s = .next t → t.cfg = s.cfg ∧ t.inputs = s.inputs.tail
end

