-- ==== Sys2Proof/Laws/Bits.lean ====
section
/-! SUPPORT. The byte orders: a word and its four bytes, a block and its four words (00_scope.md R14). -/

namespace Sys2Proof.Machine

/-- Inside its bound, the defaulted read of a vector is the read. -/
theorem getD_eq_getElem {α : Type} {n : Nat} (v : Vector α n) (i : Nat) (h : i < n) (x : α) : v.getD i x = v[i] := by
  unfold Vector.getD
  rw [Array.getD_eq_getD_getElem?]
  simp [h]

/-- A byte of a block after one byte was replaced. -/
theorem getD_setIfInBounds (c : Block) (i j : Nat) (v : Byte) (hj : j < 16) :
    (c.setIfInBounds j v).getD i 0 = if i = j then v else c.getD i 0 := by
  by_cases hi : i < 16
  · rw [getD_eq_getElem _ _ hi, getD_eq_getElem _ _ hi, Vector.getElem_setIfInBounds hi]
    by_cases h : j = i
    · simp [h]
    · simp [h, Ne.symm h]
  · have hne : i ≠ j := by omega
    have out : ∀ b : Block, b.getD i 0 = 0 := by
      intro b
      unfold Vector.getD
      rw [Array.getD_eq_getD_getElem?, Array.getElem?_eq_none (by simp; omega)]
      rfl
    rw [out, out]
    simp [hne]

theorem byteOf_toNat (w : Word) (i : Nat) : (byteOf w i).toNat = w.toNat / 2 ^ (8 * i) % 256 := by
  simp [byteOf, Nat.shiftRight_eq_div_pow]

theorem le32_toNat (b0 b1 b2 b3 : Byte) :
    (le32 b0 b1 b2 b3).toNat = b0.toNat + 2 ^ 8 * b1.toNat + 2 ^ 16 * b2.toNat + 2 ^ 24 * b3.toNat := by
  have h0 := b0.isLt
  have h1 := b1.isLt
  have h2 := b2.isLt
  have h3 := b3.isLt
  simp only [le32, BitVec.toNat_ofNat]
  omega

/-- A word is its four bytes put together. -/
@[simp] theorem le32_byteOf (w : Word) : le32 (byteOf w 0) (byteOf w 1) (byteOf w 2) (byteOf w 3) = w := by
  apply BitVec.eq_of_toNat_eq
  have h := w.isLt
  simp only [le32_toNat, byteOf_toNat]
  omega

/-- Each byte of an assembled word is the byte it was assembled from. -/
theorem byteOf_le32 (b0 b1 b2 b3 : Byte) :
    byteOf (le32 b0 b1 b2 b3) 0 = b0 ∧ byteOf (le32 b0 b1 b2 b3) 1 = b1 ∧
      byteOf (le32 b0 b1 b2 b3) 2 = b2 ∧ byteOf (le32 b0 b1 b2 b3) 3 = b3 := by
  have h0 := b0.isLt
  have h1 := b1.isLt
  have h2 := b2.isLt
  have h3 := b3.isLt
  refine ⟨?_, ?_, ?_, ?_⟩ <;> apply BitVec.eq_of_toNat_eq <;> simp only [byteOf_toNat, le32_toNat] <;> omega

/-- `words_le` after `bytes_le` (R14). -/
@[simp] theorem wordsLe_bytesLe (q : Quad) : wordsLe (bytesLe q) = q := by
  simp [wordsLe, bytesLe]

/-- Byte `4j+i` of `bytes_le(W)` is byte `i` of `W[j]` (R14). -/
theorem bytesLe_getElem (q : Quad) (j : Fin 4) (i : Nat) (h : i < 4) :
    (bytesLe q)[4 * j.val + i] = byteOf (quadGet q j) i := by
  fin_cases j <;> interval_cases i <;> rfl

/-- Byte `i` of word `j` of `words_le(B)` is byte `4j+i` of `B` (R14). -/
theorem byteOf_wordsLe (b : Block) (j : Fin 4) (i : Nat) (h : i < 4) :
    byteOf (quadGet (wordsLe b) j) i = b[4 * j.val + i] := by
  have hj := byteOf_le32 b[4 * j.val] b[4 * j.val + 1] b[4 * j.val + 2] b[4 * j.val + 3]
  fin_cases j <;> interval_cases i <;> first | exact hj.1 | exact hj.2.1 | exact hj.2.2.1 | exact hj.2.2.2

/-- `bytes_le` after `words_le` (R14). -/
@[simp] theorem bytesLe_wordsLe (b : Block) : bytesLe (wordsLe b) = b := by
  apply Vector.ext
  intro k hk
  have hjk : 4 * (⟨k / 4, by omega⟩ : Fin 4).val + k % 4 = k := by simp only; omega
  have hbyte := (bytesLe_getElem (wordsLe b) ⟨k / 4, by omega⟩ (k % 4) (by omega)).trans
    (byteOf_wordsLe b ⟨k / 4, by omega⟩ (k % 4) (by omega))
  simpa only [hjk] using hbyte

/-- The key schedule starts from KEY0..KEY3 themselves (40_primitive.md R140: `Tj = KEYj`). -/
@[simp] theorem wordsLe_keyBytes (s : State) : wordsLe (keyBytes s) = s.key := by simp [keyBytes]

/-- `ROL32` is the rotation of a 32-bit vector (40_primitive.md R133). -/
theorem rol32_eq_rotateLeft (x : Word) (n : Nat) : rol32 x n = x.rotateLeft n := by
  apply BitVec.eq_of_getLsbD_eq
  intro i hi
  rw [BitVec.getLsbD_rotateLeft]
  have hn : n % 32 < 32 := Nat.mod_lt _ (by omega)
  simp only [rol32, BitVec.getLsbD_or, BitVec.getLsbD_shiftLeft, BitVec.getLsbD_ushiftRight, hi, decide_true,
    Bool.true_and]
  by_cases h0 : n % 32 = 0
  · simp [h0, hi]
  · have h1 : (32 - n % 32) % 32 = 32 - n % 32 := Nat.mod_eq_of_lt (by omega)
    rw [h1]
    by_cases h : i < n % 32
    · simp [h]
    · simp only [h, decide_false, Bool.not_false, Bool.true_and]
      have : x.getLsbD (32 - n % 32 + i) = false := BitVec.getLsbD_of_ge _ _ (by omega)
      simp [this]

@[simp] theorem xorBytes_getElem {n i : Nat} (a b : Bytes n) (h : i < n) : (xorBytes a b)[i] = a[i] ^^^ b[i] := by
  simp [xorBytes]

@[simp] theorem blockPrefix_getElem {m i : Nat} (b : Block) (h : i < m) (hm : m ≤ 16) :
    (blockPrefix m b)[i] = b[i]'(by omega) := by
  simp only [blockPrefix, Vector.getElem_ofFn]
  exact getD_eq_getElem b i (by omega) 0

end Sys2Proof.Machine
end

