-- ==== Sys2Proof/Laws/Memory.lean ====
section
/-! SUPPORT. The data buffer: a byte reads back as written, a write leaves every other byte alone, and every operation
keeps the canonical form. -/

namespace Sys2Proof.Machine

theorem lookupCell_insertCell (a b : Nat) (v : Byte) (cs : List Host.Cell) :
    lookupCell b (insertCell a v cs) = if b = a then some v else lookupCell b cs := by
  induction cs with
  | nil =>
    by_cases h : a = b
    · subst h; simp [insertCell, lookupCell]
    · have : b ≠ a := Ne.symm h
      simp [insertCell, lookupCell, h, this]
  | cons c cs ih =>
    unfold insertCell
    split
    · by_cases h : a = b
      · subst h; simp [lookupCell]
      · have : b ≠ a := Ne.symm h
        simp [lookupCell, h, this]
    · split
      · rename_i hac
        by_cases h : a = b
        · subst h; simp [lookupCell]
        · have hb : b ≠ a := Ne.symm h
          have hc : c.1 ≠ b := fun e => h (hac.trans e)
          simp [lookupCell, h, hb, hc]
      · rename_i hac
        by_cases hcb : c.1 = b
        · have hb : b ≠ a := fun e => hac (e.symm.trans hcb.symm)
          simp [lookupCell, hcb, hb]
        · simp [lookupCell, hcb, ih]

@[simp] theorem Memory.writeByte_draw (d : Memory) (a : Nat) (v : Byte) : (d.writeByte a v).draw = d.draw := rfl

/-- Read after write: the written byte at its address, every other byte as before. -/
theorem Memory.readByte_writeByte (d : Memory) (a b : Nat) (v : Byte) :
    (d.writeByte a v).readByte b = if b = a then v else d.readByte b := by
  unfold Memory.readByte
  simp only [Memory.writeByte, lookupCell_insertCell]
  by_cases h : b = a
  · simp [h]
  · simp [h, Memory.unlisted]

/-- A written list reads back byte by byte, every other byte as before. -/
theorem Memory.readByte_writeList (d : Memory) (a b : Nat) (l : List Byte) :
    (d.writeList a l).readByte b = if a ≤ b ∧ b < a + l.length then l.getD (b - a) 0 else d.readByte b := by
  induction l generalizing d a with
  | nil => simp [Memory.writeList]
  | cons v l ih =>
    simp only [Memory.writeList, ih, Memory.readByte_writeByte, List.length_cons]
    by_cases h : b = a
    · subst h; simp
    · by_cases h1 : a + 1 ≤ b ∧ b < a + 1 + l.length
      · obtain ⟨h2, h3⟩ := h1
        have e : b - a = (b - (a + 1)) + 1 := by omega
        have h4 : a ≤ b ∧ b < a + (l.length + 1) := by omega
        rw [if_pos ⟨h2, h3⟩, if_pos h4, e, List.getD_cons_succ]
      · have h4 : ¬(a ≤ b ∧ b < a + (l.length + 1)) := by omega
        rw [if_neg h1, if_neg h4, if_neg h]

/-- `MemWrite` stores exactly its bytes at exactly its addresses. -/
theorem Memory.readByte_write (d : Memory) (a b : Nat) {n : Nat} (v : Bytes n) :
    (d.write a v).readByte b = if h : a ≤ b ∧ b < a + n then v[b - a]'(by omega) else d.readByte b := by
  unfold Memory.write
  rw [Memory.readByte_writeList]
  by_cases h : a ≤ b ∧ b < a + n
  · have h' : a ≤ b ∧ b < a + v.toList.length := by simpa using h
    have hb : b - a < v.toList.length := by simp; omega
    rw [if_pos h', dif_pos h, List.getD_eq_getElem _ _ hb]
    simp
  · have h' : ¬(a ≤ b ∧ b < a + v.toList.length) := by simpa using h
    rw [if_neg h', dif_neg h]

/-- `MemRead` returns the bytes at its addresses. -/
@[simp] theorem Memory.read_getElem (d : Memory) (a n i : Nat) (h : i < n) :
    (d.read a n)[i] = d.readByte (a + i) := by
  simp [Memory.read]

/-- Two buffers that agree on the bytes of a range read the same there. -/
theorem Memory.read_congr {d e : Memory} {a n : Nat} (h : ∀ i, i < n → d.readByte (a + i) = e.readByte (a + i)) :
    d.read a n = e.read a n := by
  ext i hi
  simp [h i hi]

/-- What was written is what is read. -/
theorem Memory.read_write (d : Memory) (a : Nat) {n : Nat} (v : Bytes n) : (d.write a v).read a n = v := by
  ext i hi
  rw [Memory.read_getElem, Memory.readByte_write, dif_pos (by omega)]
  simp

/-- A range that the write does not touch reads as before. -/
theorem Memory.read_write_of_disjoint (d : Memory) (a b m : Nat) {n : Nat} (v : Bytes n)
    (h : b + m ≤ a ∨ a + n ≤ b) : (d.write a v).read b m = d.read b m := by
  apply Memory.read_congr
  intro i hi
  rw [Memory.readByte_write, dif_neg (by omega)]

/-- A scrambled range holds the draw, every other byte is as before. -/
theorem Memory.readByte_scramble (d : Memory) (k a n b : Nat) :
    (d.scramble k a n).readByte b = if a ≤ b ∧ b < a + n then Config.freeByte k b else d.readByte b := by
  induction n with
  | zero => simp [Memory.scramble]
  | succ n ih =>
    simp only [Memory.scramble, Memory.readByte_writeByte, ih]
    by_cases h : b = a + n
    · subst h; simp
    · rw [if_neg h]
      by_cases h1 : a ≤ b ∧ b < a + n
      · rw [if_pos h1, if_pos (by omega)]
      · rw [if_neg h1, if_neg (by omega)]

/-! ### The canonical form -/

theorem mem_insertCell {a : Nat} {v : Byte} {cs : List Host.Cell} {c : Host.Cell} (h : c ∈ insertCell a v cs) :
    c = (a, v) ∨ c ∈ cs := by
  induction cs with
  | nil => simpa [insertCell] using h
  | cons e cs ih =>
    unfold insertCell at h
    split at h
    · simpa using h
    · split at h
      · rcases List.mem_cons.1 h with h | h
        · exact .inl h
        · exact .inr (List.mem_cons_of_mem _ h)
      · rcases List.mem_cons.1 h with h | h
        · exact .inr (h ▸ List.mem_cons_self)
        · rcases ih h with h | h
          · exact .inl h
          · exact .inr (List.mem_cons_of_mem _ h)

theorem insertCell_rising {a : Nat} {v : Byte} {cs : List Host.Cell}
    (h : (cs.map Prod.fst).Pairwise (· < ·)) : ((insertCell a v cs).map Prod.fst).Pairwise (· < ·) := by
  induction cs with
  | nil => simp [insertCell]
  | cons e cs ih =>
    obtain ⟨he, hcs⟩ := List.pairwise_cons.1 h
    unfold insertCell
    split
    · rename_i hlt
      simp only [List.map_cons, List.pairwise_cons]
      refine ⟨?_, he, hcs⟩
      intro x hx
      rcases List.mem_cons.1 hx with hx | hx
      · exact hx ▸ hlt
      · exact Nat.lt_trans hlt (he x hx)
    · split
      · rename_i heq
        simp only [List.map_cons, List.pairwise_cons]
        exact ⟨fun x hx => heq ▸ he x hx, hcs⟩
      · simp only [List.map_cons, List.pairwise_cons]
        refine ⟨?_, ih hcs⟩
        intro x hx
        obtain ⟨c, hc, rfl⟩ := List.mem_map.1 hx
        rcases mem_insertCell hc with rfl | hc
        · show e.1 < a
          omega
        · exact he _ (List.mem_map_of_mem hc)

theorem Memory.writeByte_wf {n a : Nat} {d : Memory} (v : Byte) (h : d.wf n) (ha : a < n) :
    (d.writeByte a v).wf n := by
  refine ⟨insertCell_rising h.1, ?_⟩
  intro c hc
  rcases mem_insertCell hc with rfl | hc
  · exact ha
  · exact h.2 c hc

theorem Memory.writeList_wf {n a : Nat} {d : Memory} (l : List Byte) (h : d.wf n) (ha : a + l.length ≤ n) :
    (d.writeList a l).wf n := by
  induction l generalizing d a with
  | nil => exact h
  | cons v l ih =>
    simp only [List.length_cons] at ha
    exact ih (Memory.writeByte_wf v h (by omega)) (by omega)

theorem Memory.write_wf {n a m : Nat} {d : Memory} (v : Bytes m) (h : d.wf n) (ha : a + m ≤ n) :
    (d.write a v).wf n :=
  Memory.writeList_wf _ h (by simpa using ha)

theorem Memory.writeWord_wf {n m : Nat} {d : Memory} (v : Word) (h : d.wf n) (ha : m + 4 ≤ n) :
    (d.writeWord m v).wf n :=
  Memory.writeList_wf _ h (by simpa using ha)

theorem Memory.scramble_wf {n k a m : Nat} {d : Memory} (h : d.wf n) (ha : m = 0 ∨ a + m ≤ n) :
    (d.scramble k a m).wf n := by
  induction m with
  | zero => exact h
  | succ m ih => exact Memory.writeByte_wf _ (ih (by omega)) (by omega)

/-- DATA right after reset is canonical. -/
theorem reset_data_wf : State.reset.data.wf State.reset.cfg.dataBytes := by decide

/-- Canonical buffers with the same draw that list the same bytes are equal data. -/
theorem cells_ext {cs ds : List Host.Cell} (hc : (cs.map Prod.fst).Pairwise (· < ·))
    (hd : (ds.map Prod.fst).Pairwise (· < ·)) (h : ∀ a, lookupCell a cs = lookupCell a ds) : cs = ds := by
  have low : ∀ (l : List Host.Cell) (a : Nat), (∀ x ∈ l.map Prod.fst, a < x) → lookupCell a l = none := by
    intro l a hl
    induction l with
    | nil => rfl
    | cons e l ih =>
      have := hl e.1 (by simp)
      have hne : e.1 ≠ a := by omega
      simp only [lookupCell, if_neg hne]
      exact ih fun x hx => hl x (by simp only [List.map_cons, List.mem_cons]; exact .inr hx)
  induction cs generalizing ds with
  | nil =>
    cases ds with
    | nil => rfl
    | cons e ds => simpa [lookupCell] using h e.1
  | cons c cs ih =>
    cases ds with
    | nil => simpa [lookupCell] using h c.1
    | cons e ds =>
      obtain ⟨hc1, hc2⟩ := List.pairwise_cons.1 hc
      obtain ⟨hd1, hd2⟩ := List.pairwise_cons.1 hd
      have hkey : c.1 = e.1 := by
        rcases Nat.lt_trichotomy c.1 e.1 with hlt | heq | hlt
        · have h1 := h c.1
          rw [low (e :: ds) c.1 (by
            intro x hx
            rcases List.mem_cons.1 hx with rfl | hx
            · exact hlt
            · exact Nat.lt_trans hlt (hd1 x hx))] at h1
          simp [lookupCell] at h1
        · exact heq
        · have h1 := h e.1
          rw [low (c :: cs) e.1 (by
            intro x hx
            rcases List.mem_cons.1 hx with rfl | hx
            · exact hlt
            · exact Nat.lt_trans hlt (hc1 x hx))] at h1
          simp [lookupCell] at h1
      have hval : c.2 = e.2 := by
        have h1 := h c.1
        simpa [lookupCell, hkey] using h1
      have hce : c = e := Prod.ext hkey hval
      subst hce
      congr 1
      apply ih hc2 hd2
      intro a
      by_cases ha : c.1 = a
      · subst ha
        rw [low cs c.1 hc1, low ds c.1 (fun x hx => hkey ▸ hd1 x hx)]
      · have h1 := h a
        simpa [lookupCell, ha] using h1

end Sys2Proof.Machine
end

