-- ==== Sys2Proof/Laws/State.lean ====
section
/-! SUPPORT. One lemma per field per update, each true by definition, so that no later proof unfolds a record update. -/

namespace Sys2Proof.Machine

/-! ### `acceptCommand` -/

@[simp] theorem acceptCommand_cfg (op : Instr) (s : State) :
    (acceptCommand op s).cfg = s.cfg := rfl
@[simp] theorem acceptCommand_ie (op : Instr) (s : State) :
    (acceptCommand op s).ie = s.ie := rfl
@[simp] theorem acceptCommand_done (op : Instr) (s : State) :
    (acceptCommand op s).done = false := rfl
@[simp] theorem acceptCommand_accerr (op : Instr) (s : State) :
    (acceptCommand op s).accerr = s.accerr := rfl
@[simp] theorem acceptCommand_err (op : Instr) (s : State) :
    (acceptCommand op s).err = .ok := rfl
@[simp] theorem acceptCommand_src (op : Instr) (s : State) :
    (acceptCommand op s).src = s.src := rfl
@[simp] theorem acceptCommand_dst (op : Instr) (s : State) :
    (acceptCommand op s).dst = s.dst := rfl
@[simp] theorem acceptCommand_len (op : Instr) (s : State) :
    (acceptCommand op s).len = s.len := rfl
@[simp] theorem acceptCommand_key (op : Instr) (s : State) :
    (acceptCommand op s).key = s.key := rfl
@[simp] theorem acceptCommand_ctr (op : Instr) (s : State) :
    (acceptCommand op s).ctr = s.ctr := rfl
@[simp] theorem acceptCommand_ctrw (op : Instr) (s : State) :
    (acceptCommand op s).ctrw = s.ctrw := rfl
@[simp] theorem acceptCommand_phase (op : Instr) (s : State) :
    (acceptCommand op s).phase = .running op := rfl
@[simp] theorem acceptCommand_schedValid (op : Instr) (s : State) :
    (acceptCommand op s).schedValid = s.schedValid := rfl
@[simp] theorem acceptCommand_rk (op : Instr) (s : State) :
    (acceptCommand op s).rk = s.rk := rfl
@[simp] theorem acceptCommand_data (op : Instr) (s : State) :
    (acceptCommand op s).data = s.data := rfl
@[simp] theorem acceptCommand_rstN (op : Instr) (s : State) :
    (acceptCommand op s).rstN = s.rstN := rfl
@[simp] theorem acceptCommand_resp (op : Instr) (s : State) :
    (acceptCommand op s).resp = s.resp := rfl
@[simp] theorem acceptCommand_draws (op : Instr) (s : State) :
    (acceptCommand op s).draws = s.draws := rfl
@[simp] theorem acceptCommand_inputs (op : Instr) (s : State) :
    (acceptCommand op s).inputs = s.inputs := rfl

/-! ### `commandError` -/

@[simp] theorem commandError_cfg (code : ErrCode) (s : State) :
    (commandError code s).cfg = s.cfg := rfl
@[simp] theorem commandError_ie (code : ErrCode) (s : State) :
    (commandError code s).ie = s.ie := rfl
@[simp] theorem commandError_done (code : ErrCode) (s : State) :
    (commandError code s).done = true := rfl
@[simp] theorem commandError_accerr (code : ErrCode) (s : State) :
    (commandError code s).accerr = s.accerr := rfl
@[simp] theorem commandError_err (code : ErrCode) (s : State) :
    (commandError code s).err = code := rfl
@[simp] theorem commandError_src (code : ErrCode) (s : State) :
    (commandError code s).src = s.src := rfl
@[simp] theorem commandError_dst (code : ErrCode) (s : State) :
    (commandError code s).dst = s.dst := rfl
@[simp] theorem commandError_len (code : ErrCode) (s : State) :
    (commandError code s).len = s.len := rfl
@[simp] theorem commandError_key (code : ErrCode) (s : State) :
    (commandError code s).key = s.key := rfl
@[simp] theorem commandError_ctr (code : ErrCode) (s : State) :
    (commandError code s).ctr = s.ctr := rfl
@[simp] theorem commandError_ctrw (code : ErrCode) (s : State) :
    (commandError code s).ctrw = s.ctrw := rfl
@[simp] theorem commandError_phase (code : ErrCode) (s : State) :
    (commandError code s).phase = s.phase := rfl
@[simp] theorem commandError_schedValid (code : ErrCode) (s : State) :
    (commandError code s).schedValid = s.schedValid := rfl
@[simp] theorem commandError_rk (code : ErrCode) (s : State) :
    (commandError code s).rk = s.rk := rfl
@[simp] theorem commandError_data (code : ErrCode) (s : State) :
    (commandError code s).data = s.data := rfl
@[simp] theorem commandError_rstN (code : ErrCode) (s : State) :
    (commandError code s).rstN = s.rstN := rfl
@[simp] theorem commandError_resp (code : ErrCode) (s : State) :
    (commandError code s).resp = s.resp := rfl
@[simp] theorem commandError_draws (code : ErrCode) (s : State) :
    (commandError code s).draws = s.draws := rfl
@[simp] theorem commandError_inputs (code : ErrCode) (s : State) :
    (commandError code s).inputs = s.inputs := rfl

/-! ### `refuseAccess` -/

@[simp] theorem refuseAccess_cfg (s : State) :
    (refuseAccess s).cfg = s.cfg := rfl
@[simp] theorem refuseAccess_ie (s : State) :
    (refuseAccess s).ie = s.ie := rfl
@[simp] theorem refuseAccess_done (s : State) :
    (refuseAccess s).done = s.done := rfl
@[simp] theorem refuseAccess_accerr (s : State) :
    (refuseAccess s).accerr = true := rfl
@[simp] theorem refuseAccess_err (s : State) :
    (refuseAccess s).err = s.err := rfl
@[simp] theorem refuseAccess_src (s : State) :
    (refuseAccess s).src = s.src := rfl
@[simp] theorem refuseAccess_dst (s : State) :
    (refuseAccess s).dst = s.dst := rfl
@[simp] theorem refuseAccess_len (s : State) :
    (refuseAccess s).len = s.len := rfl
@[simp] theorem refuseAccess_key (s : State) :
    (refuseAccess s).key = s.key := rfl
@[simp] theorem refuseAccess_ctr (s : State) :
    (refuseAccess s).ctr = s.ctr := rfl
@[simp] theorem refuseAccess_ctrw (s : State) :
    (refuseAccess s).ctrw = s.ctrw := rfl
@[simp] theorem refuseAccess_phase (s : State) :
    (refuseAccess s).phase = s.phase := rfl
@[simp] theorem refuseAccess_schedValid (s : State) :
    (refuseAccess s).schedValid = s.schedValid := rfl
@[simp] theorem refuseAccess_rk (s : State) :
    (refuseAccess s).rk = s.rk := rfl
@[simp] theorem refuseAccess_data (s : State) :
    (refuseAccess s).data = s.data := rfl
@[simp] theorem refuseAccess_rstN (s : State) :
    (refuseAccess s).rstN = s.rstN := rfl
@[simp] theorem refuseAccess_resp (s : State) :
    (refuseAccess s).resp = s.resp := rfl
@[simp] theorem refuseAccess_draws (s : State) :
    (refuseAccess s).draws = s.draws := rfl
@[simp] theorem refuseAccess_inputs (s : State) :
    (refuseAccess s).inputs = s.inputs := rfl

/-! ### `finishCommand` -/

@[simp] theorem finishCommand_cfg (s : State) :
    (finishCommand s).cfg = s.cfg := rfl
@[simp] theorem finishCommand_ie (s : State) :
    (finishCommand s).ie = s.ie := rfl
@[simp] theorem finishCommand_done (s : State) :
    (finishCommand s).done = true := rfl
@[simp] theorem finishCommand_accerr (s : State) :
    (finishCommand s).accerr = s.accerr := rfl
@[simp] theorem finishCommand_err (s : State) :
    (finishCommand s).err = s.err := rfl
@[simp] theorem finishCommand_src (s : State) :
    (finishCommand s).src = s.src := rfl
@[simp] theorem finishCommand_dst (s : State) :
    (finishCommand s).dst = s.dst := rfl
@[simp] theorem finishCommand_len (s : State) :
    (finishCommand s).len = s.len := rfl
@[simp] theorem finishCommand_key (s : State) :
    (finishCommand s).key = s.key := rfl
@[simp] theorem finishCommand_ctr (s : State) :
    (finishCommand s).ctr = s.ctr := rfl
@[simp] theorem finishCommand_ctrw (s : State) :
    (finishCommand s).ctrw = s.ctrw := rfl
@[simp] theorem finishCommand_phase (s : State) :
    (finishCommand s).phase = .idle := rfl
@[simp] theorem finishCommand_schedValid (s : State) :
    (finishCommand s).schedValid = s.schedValid := rfl
@[simp] theorem finishCommand_rk (s : State) :
    (finishCommand s).rk = s.rk := rfl
@[simp] theorem finishCommand_data (s : State) :
    (finishCommand s).data = s.data := rfl
@[simp] theorem finishCommand_rstN (s : State) :
    (finishCommand s).rstN = s.rstN := rfl
@[simp] theorem finishCommand_resp (s : State) :
    (finishCommand s).resp = s.resp := rfl
@[simp] theorem finishCommand_draws (s : State) :
    (finishCommand s).draws = s.draws := rfl
@[simp] theorem finishCommand_inputs (s : State) :
    (finishCommand s).inputs = s.inputs := rfl

/-! ### `storeSchedule` -/

@[simp] theorem storeSchedule_cfg (s : State) :
    (storeSchedule s).cfg = s.cfg := rfl
@[simp] theorem storeSchedule_ie (s : State) :
    (storeSchedule s).ie = s.ie := rfl
@[simp] theorem storeSchedule_done (s : State) :
    (storeSchedule s).done = s.done := rfl
@[simp] theorem storeSchedule_accerr (s : State) :
    (storeSchedule s).accerr = s.accerr := rfl
@[simp] theorem storeSchedule_err (s : State) :
    (storeSchedule s).err = s.err := rfl
@[simp] theorem storeSchedule_src (s : State) :
    (storeSchedule s).src = s.src := rfl
@[simp] theorem storeSchedule_dst (s : State) :
    (storeSchedule s).dst = s.dst := rfl
@[simp] theorem storeSchedule_len (s : State) :
    (storeSchedule s).len = s.len := rfl
@[simp] theorem storeSchedule_key (s : State) :
    (storeSchedule s).key = s.key := rfl
@[simp] theorem storeSchedule_ctr (s : State) :
    (storeSchedule s).ctr = s.ctr := rfl
@[simp] theorem storeSchedule_ctrw (s : State) :
    (storeSchedule s).ctrw = s.ctrw := rfl
@[simp] theorem storeSchedule_phase (s : State) :
    (storeSchedule s).phase = s.phase := rfl
@[simp] theorem storeSchedule_schedValid (s : State) :
    (storeSchedule s).schedValid = true := rfl
@[simp] theorem storeSchedule_rk (s : State) :
    (storeSchedule s).rk = deriveSchedule (keyBytes s) := rfl
@[simp] theorem storeSchedule_data (s : State) :
    (storeSchedule s).data = s.data := rfl
@[simp] theorem storeSchedule_rstN (s : State) :
    (storeSchedule s).rstN = s.rstN := rfl
@[simp] theorem storeSchedule_resp (s : State) :
    (storeSchedule s).resp = s.resp := rfl
@[simp] theorem storeSchedule_draws (s : State) :
    (storeSchedule s).draws = s.draws := rfl
@[simp] theorem storeSchedule_inputs (s : State) :
    (storeSchedule s).inputs = s.inputs := rfl

/-! ### `encBlockEffect` -/

@[simp] theorem encBlockEffect_cfg (s : State) :
    (encBlockEffect s).cfg = s.cfg := by unfold encBlockEffect; rfl
@[simp] theorem encBlockEffect_ie (s : State) :
    (encBlockEffect s).ie = s.ie := by unfold encBlockEffect; rfl
@[simp] theorem encBlockEffect_done (s : State) :
    (encBlockEffect s).done = s.done := by unfold encBlockEffect; rfl
@[simp] theorem encBlockEffect_accerr (s : State) :
    (encBlockEffect s).accerr = s.accerr := by unfold encBlockEffect; rfl
@[simp] theorem encBlockEffect_err (s : State) :
    (encBlockEffect s).err = s.err := by unfold encBlockEffect; rfl
@[simp] theorem encBlockEffect_src (s : State) :
    (encBlockEffect s).src = s.src := by unfold encBlockEffect; rfl
@[simp] theorem encBlockEffect_dst (s : State) :
    (encBlockEffect s).dst = s.dst := by unfold encBlockEffect; rfl
@[simp] theorem encBlockEffect_len (s : State) :
    (encBlockEffect s).len = s.len := by unfold encBlockEffect; rfl
@[simp] theorem encBlockEffect_key (s : State) :
    (encBlockEffect s).key = s.key := by unfold encBlockEffect; rfl
@[simp] theorem encBlockEffect_ctr (s : State) :
    (encBlockEffect s).ctr = s.ctr := by unfold encBlockEffect; rfl
@[simp] theorem encBlockEffect_ctrw (s : State) :
    (encBlockEffect s).ctrw = s.ctrw := by unfold encBlockEffect; rfl
@[simp] theorem encBlockEffect_phase (s : State) :
    (encBlockEffect s).phase = s.phase := by unfold encBlockEffect; rfl
@[simp] theorem encBlockEffect_schedValid (s : State) :
    (encBlockEffect s).schedValid = s.schedValid := by unfold encBlockEffect; rfl
@[simp] theorem encBlockEffect_rk (s : State) :
    (encBlockEffect s).rk = s.rk := by unfold encBlockEffect; rfl
@[simp] theorem encBlockEffect_data (s : State) :
    (encBlockEffect s).data = transformBlock (encryptBlock s.rk) (srcOffset s) (dstOffset s) s.data := by unfold encBlockEffect; rfl
@[simp] theorem encBlockEffect_rstN (s : State) :
    (encBlockEffect s).rstN = s.rstN := by unfold encBlockEffect; rfl
@[simp] theorem encBlockEffect_resp (s : State) :
    (encBlockEffect s).resp = s.resp := by unfold encBlockEffect; rfl
@[simp] theorem encBlockEffect_draws (s : State) :
    (encBlockEffect s).draws = s.draws := by unfold encBlockEffect; rfl
@[simp] theorem encBlockEffect_inputs (s : State) :
    (encBlockEffect s).inputs = s.inputs := by unfold encBlockEffect; rfl

/-! ### `decBlockEffect` -/

@[simp] theorem decBlockEffect_cfg (s : State) :
    (decBlockEffect s).cfg = s.cfg := by unfold decBlockEffect; rfl
@[simp] theorem decBlockEffect_ie (s : State) :
    (decBlockEffect s).ie = s.ie := by unfold decBlockEffect; rfl
@[simp] theorem decBlockEffect_done (s : State) :
    (decBlockEffect s).done = s.done := by unfold decBlockEffect; rfl
@[simp] theorem decBlockEffect_accerr (s : State) :
    (decBlockEffect s).accerr = s.accerr := by unfold decBlockEffect; rfl
@[simp] theorem decBlockEffect_err (s : State) :
    (decBlockEffect s).err = s.err := by unfold decBlockEffect; rfl
@[simp] theorem decBlockEffect_src (s : State) :
    (decBlockEffect s).src = s.src := by unfold decBlockEffect; rfl
@[simp] theorem decBlockEffect_dst (s : State) :
    (decBlockEffect s).dst = s.dst := by unfold decBlockEffect; rfl
@[simp] theorem decBlockEffect_len (s : State) :
    (decBlockEffect s).len = s.len := by unfold decBlockEffect; rfl
@[simp] theorem decBlockEffect_key (s : State) :
    (decBlockEffect s).key = s.key := by unfold decBlockEffect; rfl
@[simp] theorem decBlockEffect_ctr (s : State) :
    (decBlockEffect s).ctr = s.ctr := by unfold decBlockEffect; rfl
@[simp] theorem decBlockEffect_ctrw (s : State) :
    (decBlockEffect s).ctrw = s.ctrw := by unfold decBlockEffect; rfl
@[simp] theorem decBlockEffect_phase (s : State) :
    (decBlockEffect s).phase = s.phase := by unfold decBlockEffect; rfl
@[simp] theorem decBlockEffect_schedValid (s : State) :
    (decBlockEffect s).schedValid = s.schedValid := by unfold decBlockEffect; rfl
@[simp] theorem decBlockEffect_rk (s : State) :
    (decBlockEffect s).rk = s.rk := by unfold decBlockEffect; rfl
@[simp] theorem decBlockEffect_data (s : State) :
    (decBlockEffect s).data = transformBlock (decryptBlock s.rk) (srcOffset s) (dstOffset s) s.data := by unfold decBlockEffect; rfl
@[simp] theorem decBlockEffect_rstN (s : State) :
    (decBlockEffect s).rstN = s.rstN := by unfold decBlockEffect; rfl
@[simp] theorem decBlockEffect_resp (s : State) :
    (decBlockEffect s).resp = s.resp := by unfold decBlockEffect; rfl
@[simp] theorem decBlockEffect_draws (s : State) :
    (decBlockEffect s).draws = s.draws := by unfold decBlockEffect; rfl
@[simp] theorem decBlockEffect_inputs (s : State) :
    (decBlockEffect s).inputs = s.inputs := by unfold decBlockEffect; rfl

/-! ### `ecbData` -/

@[simp] theorem ecbData_cfg (f : Block → Block) (s : State) :
    (ecbData f s).cfg = s.cfg := rfl
@[simp] theorem ecbData_ie (f : Block → Block) (s : State) :
    (ecbData f s).ie = s.ie := rfl
@[simp] theorem ecbData_done (f : Block → Block) (s : State) :
    (ecbData f s).done = s.done := rfl
@[simp] theorem ecbData_accerr (f : Block → Block) (s : State) :
    (ecbData f s).accerr = s.accerr := rfl
@[simp] theorem ecbData_err (f : Block → Block) (s : State) :
    (ecbData f s).err = s.err := rfl
@[simp] theorem ecbData_src (f : Block → Block) (s : State) :
    (ecbData f s).src = s.src := rfl
@[simp] theorem ecbData_dst (f : Block → Block) (s : State) :
    (ecbData f s).dst = s.dst := rfl
@[simp] theorem ecbData_len (f : Block → Block) (s : State) :
    (ecbData f s).len = s.len := rfl
@[simp] theorem ecbData_key (f : Block → Block) (s : State) :
    (ecbData f s).key = s.key := rfl
@[simp] theorem ecbData_ctr (f : Block → Block) (s : State) :
    (ecbData f s).ctr = s.ctr := rfl
@[simp] theorem ecbData_ctrw (f : Block → Block) (s : State) :
    (ecbData f s).ctrw = s.ctrw := rfl
@[simp] theorem ecbData_phase (f : Block → Block) (s : State) :
    (ecbData f s).phase = s.phase := rfl
@[simp] theorem ecbData_schedValid (f : Block → Block) (s : State) :
    (ecbData f s).schedValid = s.schedValid := rfl
@[simp] theorem ecbData_rk (f : Block → Block) (s : State) :
    (ecbData f s).rk = s.rk := rfl
@[simp] theorem ecbData_data (f : Block → Block) (s : State) :
    (ecbData f s).data = ecbBlocks f (srcOffset s) (dstOffset s) (byteLength s / 16) s.data := rfl
@[simp] theorem ecbData_rstN (f : Block → Block) (s : State) :
    (ecbData f s).rstN = s.rstN := rfl
@[simp] theorem ecbData_resp (f : Block → Block) (s : State) :
    (ecbData f s).resp = s.resp := rfl
@[simp] theorem ecbData_draws (f : Block → Block) (s : State) :
    (ecbData f s).draws = s.draws := rfl
@[simp] theorem ecbData_inputs (f : Block → Block) (s : State) :
    (ecbData f s).inputs = s.inputs := rfl

/-! ### `ctrData` -/

@[simp] theorem ctrData_cfg (s : State) :
    (ctrData s).cfg = s.cfg := rfl
@[simp] theorem ctrData_ie (s : State) :
    (ctrData s).ie = s.ie := rfl
@[simp] theorem ctrData_done (s : State) :
    (ctrData s).done = s.done := rfl
@[simp] theorem ctrData_accerr (s : State) :
    (ctrData s).accerr = s.accerr := rfl
@[simp] theorem ctrData_err (s : State) :
    (ctrData s).err = s.err := rfl
@[simp] theorem ctrData_src (s : State) :
    (ctrData s).src = s.src := rfl
@[simp] theorem ctrData_dst (s : State) :
    (ctrData s).dst = s.dst := rfl
@[simp] theorem ctrData_len (s : State) :
    (ctrData s).len = s.len := rfl
@[simp] theorem ctrData_key (s : State) :
    (ctrData s).key = s.key := rfl
@[simp] theorem ctrData_ctr (s : State) :
    (ctrData s).ctr = s.ctr := rfl
@[simp] theorem ctrData_ctrw (s : State) :
    (ctrData s).ctrw = wordsLe (ctrRun s.rk (srcOffset s) (dstOffset s) (byteLength s) ⟨initialCounter s, s.data⟩).counter := rfl
@[simp] theorem ctrData_phase (s : State) :
    (ctrData s).phase = s.phase := rfl
@[simp] theorem ctrData_schedValid (s : State) :
    (ctrData s).schedValid = s.schedValid := rfl
@[simp] theorem ctrData_rk (s : State) :
    (ctrData s).rk = s.rk := rfl
@[simp] theorem ctrData_data (s : State) :
    (ctrData s).data = (ctrRun s.rk (srcOffset s) (dstOffset s) (byteLength s) ⟨initialCounter s, s.data⟩).data := rfl
@[simp] theorem ctrData_rstN (s : State) :
    (ctrData s).rstN = s.rstN := rfl
@[simp] theorem ctrData_resp (s : State) :
    (ctrData s).resp = s.resp := rfl
@[simp] theorem ctrData_draws (s : State) :
    (ctrData s).draws = s.draws := rfl
@[simp] theorem ctrData_inputs (s : State) :
    (ctrData s).inputs = s.inputs := rfl

/-! ### `writeStatus` -/

@[simp] theorem writeStatus_cfg (v : Word) (s : State) :
    (writeStatus v s).cfg = s.cfg := rfl
@[simp] theorem writeStatus_ie (v : Word) (s : State) :
    (writeStatus v s).ie = s.ie := rfl
@[simp] theorem writeStatus_done (v : Word) (s : State) :
    (writeStatus v s).done = (s.done && !v.getLsbD 1) := rfl
@[simp] theorem writeStatus_accerr (v : Word) (s : State) :
    (writeStatus v s).accerr = (s.accerr && !v.getLsbD 3) := rfl
@[simp] theorem writeStatus_err (v : Word) (s : State) :
    (writeStatus v s).err = s.err := rfl
@[simp] theorem writeStatus_src (v : Word) (s : State) :
    (writeStatus v s).src = s.src := rfl
@[simp] theorem writeStatus_dst (v : Word) (s : State) :
    (writeStatus v s).dst = s.dst := rfl
@[simp] theorem writeStatus_len (v : Word) (s : State) :
    (writeStatus v s).len = s.len := rfl
@[simp] theorem writeStatus_key (v : Word) (s : State) :
    (writeStatus v s).key = s.key := rfl
@[simp] theorem writeStatus_ctr (v : Word) (s : State) :
    (writeStatus v s).ctr = s.ctr := rfl
@[simp] theorem writeStatus_ctrw (v : Word) (s : State) :
    (writeStatus v s).ctrw = s.ctrw := rfl
@[simp] theorem writeStatus_phase (v : Word) (s : State) :
    (writeStatus v s).phase = s.phase := rfl
@[simp] theorem writeStatus_schedValid (v : Word) (s : State) :
    (writeStatus v s).schedValid = s.schedValid := rfl
@[simp] theorem writeStatus_rk (v : Word) (s : State) :
    (writeStatus v s).rk = s.rk := rfl
@[simp] theorem writeStatus_data (v : Word) (s : State) :
    (writeStatus v s).data = s.data := rfl
@[simp] theorem writeStatus_rstN (v : Word) (s : State) :
    (writeStatus v s).rstN = s.rstN := rfl
@[simp] theorem writeStatus_resp (v : Word) (s : State) :
    (writeStatus v s).resp = s.resp := rfl
@[simp] theorem writeStatus_draws (v : Word) (s : State) :
    (writeStatus v s).draws = s.draws := rfl
@[simp] theorem writeStatus_inputs (v : Word) (s : State) :
    (writeStatus v s).inputs = s.inputs := rfl

/-! ### `writeIe` -/

@[simp] theorem writeIe_cfg (v : Word) (s : State) :
    (writeIe v s).cfg = s.cfg := rfl
@[simp] theorem writeIe_ie (v : Word) (s : State) :
    (writeIe v s).ie = v.getLsbD 0 := rfl
@[simp] theorem writeIe_done (v : Word) (s : State) :
    (writeIe v s).done = s.done := rfl
@[simp] theorem writeIe_accerr (v : Word) (s : State) :
    (writeIe v s).accerr = s.accerr := rfl
@[simp] theorem writeIe_err (v : Word) (s : State) :
    (writeIe v s).err = s.err := rfl
@[simp] theorem writeIe_src (v : Word) (s : State) :
    (writeIe v s).src = s.src := rfl
@[simp] theorem writeIe_dst (v : Word) (s : State) :
    (writeIe v s).dst = s.dst := rfl
@[simp] theorem writeIe_len (v : Word) (s : State) :
    (writeIe v s).len = s.len := rfl
@[simp] theorem writeIe_key (v : Word) (s : State) :
    (writeIe v s).key = s.key := rfl
@[simp] theorem writeIe_ctr (v : Word) (s : State) :
    (writeIe v s).ctr = s.ctr := rfl
@[simp] theorem writeIe_ctrw (v : Word) (s : State) :
    (writeIe v s).ctrw = s.ctrw := rfl
@[simp] theorem writeIe_phase (v : Word) (s : State) :
    (writeIe v s).phase = s.phase := rfl
@[simp] theorem writeIe_schedValid (v : Word) (s : State) :
    (writeIe v s).schedValid = s.schedValid := rfl
@[simp] theorem writeIe_rk (v : Word) (s : State) :
    (writeIe v s).rk = s.rk := rfl
@[simp] theorem writeIe_data (v : Word) (s : State) :
    (writeIe v s).data = s.data := rfl
@[simp] theorem writeIe_rstN (v : Word) (s : State) :
    (writeIe v s).rstN = s.rstN := rfl
@[simp] theorem writeIe_resp (v : Word) (s : State) :
    (writeIe v s).resp = s.resp := rfl
@[simp] theorem writeIe_draws (v : Word) (s : State) :
    (writeIe v s).draws = s.draws := rfl
@[simp] theorem writeIe_inputs (v : Word) (s : State) :
    (writeIe v s).inputs = s.inputs := rfl

/-! ### `respond` -/

@[simp] theorem respond_cfg (r : Option Word) (e : Bool) (s : State) :
    (respond r e s).cfg = s.cfg := rfl
@[simp] theorem respond_ie (r : Option Word) (e : Bool) (s : State) :
    (respond r e s).ie = s.ie := rfl
@[simp] theorem respond_done (r : Option Word) (e : Bool) (s : State) :
    (respond r e s).done = s.done := rfl
@[simp] theorem respond_accerr (r : Option Word) (e : Bool) (s : State) :
    (respond r e s).accerr = s.accerr := rfl
@[simp] theorem respond_err (r : Option Word) (e : Bool) (s : State) :
    (respond r e s).err = s.err := rfl
@[simp] theorem respond_src (r : Option Word) (e : Bool) (s : State) :
    (respond r e s).src = s.src := rfl
@[simp] theorem respond_dst (r : Option Word) (e : Bool) (s : State) :
    (respond r e s).dst = s.dst := rfl
@[simp] theorem respond_len (r : Option Word) (e : Bool) (s : State) :
    (respond r e s).len = s.len := rfl
@[simp] theorem respond_key (r : Option Word) (e : Bool) (s : State) :
    (respond r e s).key = s.key := rfl
@[simp] theorem respond_ctr (r : Option Word) (e : Bool) (s : State) :
    (respond r e s).ctr = s.ctr := rfl
@[simp] theorem respond_ctrw (r : Option Word) (e : Bool) (s : State) :
    (respond r e s).ctrw = s.ctrw := rfl
@[simp] theorem respond_phase (r : Option Word) (e : Bool) (s : State) :
    (respond r e s).phase = s.phase := rfl
@[simp] theorem respond_schedValid (r : Option Word) (e : Bool) (s : State) :
    (respond r e s).schedValid = s.schedValid := rfl
@[simp] theorem respond_rk (r : Option Word) (e : Bool) (s : State) :
    (respond r e s).rk = s.rk := rfl
@[simp] theorem respond_data (r : Option Word) (e : Bool) (s : State) :
    (respond r e s).data = s.data := rfl
@[simp] theorem respond_rstN (r : Option Word) (e : Bool) (s : State) :
    (respond r e s).rstN = s.rstN := rfl
@[simp] theorem respond_resp (r : Option Word) (e : Bool) (s : State) :
    (respond r e s).resp = some ⟨r, e⟩ := rfl
@[simp] theorem respond_draws (r : Option Word) (e : Bool) (s : State) :
    (respond r e s).draws = s.draws := rfl
@[simp] theorem respond_inputs (r : Option Word) (e : Bool) (s : State) :
    (respond r e s).inputs = s.inputs := rfl

/-! ### `resetRegisters` -/

@[simp] theorem resetRegisters_cfg (s : State) :
    (resetRegisters s).cfg = s.cfg := rfl
@[simp] theorem resetRegisters_ie (s : State) :
    (resetRegisters s).ie = false := rfl
@[simp] theorem resetRegisters_done (s : State) :
    (resetRegisters s).done = false := rfl
@[simp] theorem resetRegisters_accerr (s : State) :
    (resetRegisters s).accerr = false := rfl
@[simp] theorem resetRegisters_err (s : State) :
    (resetRegisters s).err = .ok := rfl
@[simp] theorem resetRegisters_src (s : State) :
    (resetRegisters s).src = 0 := rfl
@[simp] theorem resetRegisters_dst (s : State) :
    (resetRegisters s).dst = 0 := rfl
@[simp] theorem resetRegisters_len (s : State) :
    (resetRegisters s).len = 0 := rfl
@[simp] theorem resetRegisters_key (s : State) :
    (resetRegisters s).key = Quad.zero := rfl
@[simp] theorem resetRegisters_ctr (s : State) :
    (resetRegisters s).ctr = Quad.zero := rfl
@[simp] theorem resetRegisters_ctrw (s : State) :
    (resetRegisters s).ctrw = Quad.zero := rfl
@[simp] theorem resetRegisters_phase (s : State) :
    (resetRegisters s).phase = .idle := rfl
@[simp] theorem resetRegisters_schedValid (s : State) :
    (resetRegisters s).schedValid = false := rfl
@[simp] theorem resetRegisters_rk (s : State) :
    (resetRegisters s).rk = freeRoundKeys s.draws := rfl
@[simp] theorem resetRegisters_data (s : State) :
    (resetRegisters s).data = s.data := rfl
@[simp] theorem resetRegisters_rstN (s : State) :
    (resetRegisters s).rstN = s.rstN := rfl
@[simp] theorem resetRegisters_resp (s : State) :
    (resetRegisters s).resp = s.resp := rfl
@[simp] theorem resetRegisters_draws (s : State) :
    (resetRegisters s).draws = s.draws + 1 := rfl
@[simp] theorem resetRegisters_inputs (s : State) :
    (resetRegisters s).inputs = s.inputs := rfl

end Sys2Proof.Machine
end

