-- ==== Sys2Proof/Laws/Commands.lean ====
section
/-! SUPPORT. What a command can do: one step of `exec` by the phase it is taken in, and what each command's effect
leaves alone. -/

namespace Sys2Proof.Machine

/-- The `complete:` part of each command's rule, as a function of the command. -/
def commandEffect : Instr → State → State
  | .keysched => storeSchedule
  | .encBlock => encBlockEffect
  | .decBlock => decBlockEffect
  | .ecbEnc => ecbEncEffect
  | .ecbDec => ecbDecEffect
  | .ctrEnc => ctrEffect
  | .ctrDec => ctrEffect

/-- Every command is one step of the shared template. -/
theorem exec_eq_runCommand (i : Instr) (s : State) : exec i s = runCommand i (commandEffect i) s := by
  cases i <;> rfl

/-- While idle a command only starts (60_exceptions.md R207). -/
theorem exec_of_idle {i : Instr} {s : State} (h : s.phase = .idle) : exec i s = .next (startCommand i s) := by
  simp [exec_eq_runCommand, runCommand, h]

/-- While it runs, a command completes (70_reset_and_hazards.md R250). -/
theorem exec_of_running {i : Instr} {s : State} (h : s.phase = .running i) (hr : rangeFails i s = false) :
    exec i s = .next (finishCommand (commandEffect i s)) := by
  simp [exec_eq_runCommand, runCommand, h, completeCommand, hr]

/-- Everything an `exec` that answers a next state can have done. -/
theorem exec_next_cases {i : Instr} {s t : State} (h : exec i s = .next t) :
    (s.phase = .idle ∧ t = startCommand i s) ∨
    (s.phase = .running i ∧ rangeFails i s = false ∧ t = finishCommand (commandEffect i s)) ∨
    (∃ j, s.phase = .running j ∧ j ≠ i ∧ t = refuseAccess s) := by
  rw [exec_eq_runCommand] at h
  unfold runCommand at h
  split at h
  · rename_i hp
    injection h with h
    exact .inl ⟨hp, h.symm⟩
  · rename_i j hp
    split at h
    · rename_i hj
      unfold completeCommand at h
      split at h
      · cases h
      · rename_i hr
        injection h with h
        exact .inr (.inl ⟨hj ▸ hp, by simpa using hr, h.symm⟩)
    · rename_i hj
      injection h with h
      exact .inr (.inr ⟨j, hp, hj, h.symm⟩)

/-- The two things a start can do. -/
theorem startCommand_cases (i : Instr) (s : State) :
    (checkCommand i s = none ∧ startCommand i s = acceptCommand i s) ∨
    (∃ code, checkCommand i s = some code ∧ startCommand i s = commandError code s) := by
  unfold startCommand
  split
  · rename_i code h
    exact .inr ⟨code, h, rfl⟩
  · rename_i h
    exact .inl ⟨h, rfl⟩

/-- A command that passes its checks has its ranges inside DATA. -/
theorem rangeFails_of_check {i : Instr} {s : State} (h : checkCommand i s = none) : rangeFails i s = false := by
  unfold checkCommand at h
  split at h
  · cases h
  · split at h
    · cases h
    · rename_i hr
      simpa using hr

/-- A reported code is LENGTH, RANGE or NOSCHED, and NOSCHED only without a schedule (60_exceptions.md R207). -/
theorem checkCommand_code {i : Instr} {s : State} {code : ErrCode} (h : checkCommand i s = some code) :
    code ≠ .ok ∧ (code = .noSched → s.schedValid = false) := by
  unfold checkCommand at h
  split at h
  · cases h; simp
  · split at h
    · cases h; simp
    · split at h
      · rename_i hs
        cases h
        simp at hs
        exact ⟨by decide, fun _ => hs.2⟩
      · cases h

/-- The checks read only SRC, DST, LEN, SCHED_VALID and DATA_BYTES. -/
theorem checkCommand_congr {i : Instr} {s t : State} (h1 : t.cfg = s.cfg) (h2 : t.src = s.src) (h3 : t.dst = s.dst)
    (h4 : t.len = s.len) (h5 : t.schedValid = s.schedValid) : checkCommand i t = checkCommand i s := by
  have hd : dataLength i t = dataLength i s := by cases i <;> simp [dataLength, byteLength, h4]
  simp [checkCommand, rangeFails, hd, srcOffset, dstOffset, byteLength, h1, h2, h3, h4, h5]

/-! ### What a command's effect leaves alone (30_encoding.md R113) -/

/-- No effect writes a parameter, CTRL, STATUS, SRC, DST, LEN, KEY, CTR, the phase or the model's bookkeeping. -/
theorem commandEffect_frame (i : Instr) (s : State) :
    (commandEffect i s).cfg = s.cfg ∧ (commandEffect i s).ie = s.ie ∧ (commandEffect i s).done = s.done ∧
    (commandEffect i s).accerr = s.accerr ∧ (commandEffect i s).err = s.err ∧ (commandEffect i s).src = s.src ∧
    (commandEffect i s).dst = s.dst ∧ (commandEffect i s).len = s.len ∧ (commandEffect i s).key = s.key ∧
    (commandEffect i s).ctr = s.ctr ∧ (commandEffect i s).phase = s.phase ∧ (commandEffect i s).rstN = s.rstN ∧
    (commandEffect i s).resp = s.resp ∧ (commandEffect i s).draws = s.draws ∧
    (commandEffect i s).inputs = s.inputs := by
  cases i <;> simp [commandEffect, ecbEncEffect, ecbDecEffect, ctrEffect]

/-- A schedule, once there, stays until a reset. -/
theorem commandEffect_schedValid (i : Instr) (s : State) (h : s.schedValid = true) :
    (commandEffect i s).schedValid = true := by
  cases i <;> simp [commandEffect, ecbEncEffect, ecbDecEffect, ctrEffect, h]

/-! ### DATA -/

theorem transformBlock_wf {n src dst : Nat} {d : Memory} (f : Block → Block) (h : d.wf n) (hd : dst + 16 ≤ n) :
    (transformBlock f src dst d).wf n := Memory.write_wf _ h hd

theorem ecbBlocks_wf {n src dst k : Nat} {d : Memory} (f : Block → Block) (h : d.wf n) (hd : dst + 16 * k ≤ n) :
    (ecbBlocks f src dst k d).wf n := by
  induction k with
  | zero => exact h
  | succ k ih => exact transformBlock_wf f (ih (by omega)) (by omega)

theorem ctrChunks_wf {n src dst k : Nat} {c : CtrRun} (rk : RoundKeys) (h : c.data.wf n) (hd : dst + 16 * k ≤ n) :
    (ctrChunks rk src dst k c).data.wf n := by
  induction k with
  | zero => exact h
  | succ k ih => exact Memory.write_wf _ (ih (by omega)) (by omega)

theorem ctrRun_wf {n src dst len : Nat} {c : CtrRun} (rk : RoundKeys) (h : c.data.wf n) (hd : dst + len ≤ n) :
    (ctrRun rk src dst len c).data.wf n :=
  Memory.write_wf _ (ctrChunks_wf rk h (by omega)) (by omega)

/-- A completing command keeps DATA in its canonical form. -/
theorem commandEffect_wf {i : Instr} {s : State} (h : s.data.wf s.cfg.dataBytes) (hr : rangeFails i s = false) :
    (commandEffect i s).data.wf s.cfg.dataBytes := by
  have block : ∀ f : Block → Block, dstOffset s + 16 ≤ s.cfg.dataBytes →
      (transformBlock f (srcOffset s) (dstOffset s) s.data).wf s.cfg.dataBytes :=
    fun f hd => transformBlock_wf f h hd
  cases i with
  | keysched => exact h
  | encBlock =>
    simp [rangeFails, dataLength] at hr
    simpa [commandEffect] using block _ hr.2
  | decBlock =>
    simp [rangeFails, dataLength] at hr
    simpa [commandEffect] using block _ hr.2
  | ecbEnc | ecbDec =>
    simp [rangeFails, dataLength] at hr
    simp only [commandEffect, ecbEncEffect, ecbDecEffect, ecbData_data, storeSchedule_data]
    apply ecbBlocks_wf _ h
    simp only [dstOffset, byteLength, storeSchedule_dst, storeSchedule_len] at hr ⊢
    omega
  | ctrEnc | ctrDec =>
    simp [rangeFails, dataLength] at hr
    simp only [commandEffect, ctrEffect, ctrData_data, storeSchedule_data]
    apply ctrRun_wf _ h
    simp only [dstOffset, byteLength, storeSchedule_dst, storeSchedule_len] at hr ⊢
    omega

end Sys2Proof.Machine
end

