-- ==== Sys2Proof/Laws/Modes.lean ====
section
/-! SUPPORT. What the modes can do: the state each command completes with, the bytes each leaves alone, and the
counter as an integer. -/

namespace Sys2Proof.Machine

/-- A range inside DATA passes the engine's own check. -/
theorem rangeFails_of_inRange {s : State} {op : Instr} {n : Nat} (h : dataLength op s = some n) (hr : inRange s n) :
    rangeFails op s = false := by
  simp [rangeFails, h, srcOffset, dstOffset, hr.1, hr.2]

/-- A `MemWrite` changes its own bytes at most. -/
theorem sameOutside_write (d : Memory) (a : Nat) {n : Nat} (v : Bytes n) : sameOutside a n d (d.write a v) := by
  intro x hx
  rw [Memory.readByte_write, dif_neg (by omega)]

/-- An aborted range changes its own bytes at most. -/
theorem sameOutside_scramble (d : Memory) (k a : Nat) {n m : Nat} (h : n ≤ m) :
    sameOutside a m d (d.scramble k a n) := by
  intro x hx
  rw [Memory.readByte_scramble, if_neg (by omega)]

theorem ecbBlocks_sameOutside (f : Block → Block) (src dst n : Nat) (d : Memory) :
    sameOutside dst (16 * n) d (ecbBlocks f src dst n d) := by
  induction n with
  | zero => intro x hx; rfl
  | succ n ih =>
    intro x hx
    rw [← ih x (by omega)]
    exact sameOutside_write _ _ _ x (by omega)

theorem ctrChunks_sameOutside (rk : RoundKeys) (src dst n : Nat) (c : CtrRun) :
    sameOutside dst (16 * n) c.data (ctrChunks rk src dst n c).data := by
  induction n with
  | zero => intro x hx; rfl
  | succ n ih =>
    intro x hx
    rw [← ih x (by omega)]
    exact sameOutside_write _ _ _ x (by omega)

theorem ctrRun_sameOutside (rk : RoundKeys) (src dst len : Nat) (c : CtrRun) :
    sameOutside dst len c.data (ctrRun rk src dst len c).data := by
  intro x hx
  rw [← ctrChunks_sameOutside rk src dst (len / 16) c x (by omega)]
  exact sameOutside_write _ _ _ x (by omega)

/-- The state a running ECB command completes with. -/
theorem exec_ecb {s : State} {op : Instr} {f : Block → Block}
    (hop : op = .ecbEnc ∧ f = encryptBlock (deriveSchedule (bytesLe s.key)) ∨
      op = .ecbDec ∧ f = decryptBlock (deriveSchedule (bytesLe s.key)))
    (hp : s.phase = .running op) (hr : inRange s s.len.toNat) :
    exec op s = .next (completed s (deriveSchedule (bytesLe s.key)) true s.ctrw
      (ecbBlocks f s.src.toNat s.dst.toNat (s.len.toNat / 16) s.data)) := by
  rcases hop with ⟨rfl, rfl⟩ | ⟨rfl, rfl⟩
  · rw [exec_of_running hp (rangeFails_of_inRange rfl hr)]
    rfl
  · rw [exec_of_running hp (rangeFails_of_inRange rfl hr)]
    rfl

/-- The state a running CTR command completes with. -/
theorem exec_ctr {s : State} {op : Instr} (hop : op = .ctrEnc ∨ op = .ctrDec) (hp : s.phase = .running op)
    (hr : inRange s s.len.toNat) :
    exec op s = .next (completed s (deriveSchedule (bytesLe s.key)) true
      (wordsLe (ctrRun (deriveSchedule (bytesLe s.key)) s.src.toNat s.dst.toNat s.len.toNat
        ⟨bytesLe s.ctr, s.data⟩).counter)
      (ctrRun (deriveSchedule (bytesLe s.key)) s.src.toNat s.dst.toNat s.len.toNat ⟨bytesLe s.ctr, s.data⟩).data) := by
  rcases hop with rfl | rfl
  · rw [exec_of_running hp (rangeFails_of_inRange rfl hr)]
    rfl
  · rw [exec_of_running hp (rangeFails_of_inRange rfl hr)]
    rfl

/-! ### The counter as an integer -/

theorem bePrefix_lt (c : Block) (i : Nat) : bePrefix c i < 256 ^ (i + 1) := by
  induction i with
  | zero => exact (c.getD 0 0).isLt
  | succ i ih =>
    simp only [bePrefix]
    have h := (c.getD (i + 1) 0).isLt
    have hp : 256 ^ (i + 1 + 1) = 256 * 256 ^ (i + 1) := by rw [pow_succ]; ring
    rw [hp]
    omega

/-- A counter is an integer below 2^128 (41_modes.md R171). -/
theorem be128_lt (c : Block) : be128 c < 2 ^ 128 := bePrefix_lt c 15

theorem bePrefix_inj (c d : Block) (i : Nat) (h : bePrefix c i = bePrefix d i) :
    ∀ j, j ≤ i → c.getD j 0 = d.getD j 0 := by
  induction i with
  | zero =>
    intro j hj
    obtain rfl : j = 0 := by omega
    exact BitVec.eq_of_toNat_eq h
  | succ i ih =>
    simp only [bePrefix] at h
    have h1 := (c.getD (i + 1) 0).isLt
    have h2 := (d.getD (i + 1) 0).isLt
    intro j hj
    by_cases hji : j = i + 1
    · subst hji
      exact BitVec.eq_of_toNat_eq (by omega)
    · exact ih (by omega) j (by omega)

/-- The integer determines the counter's bytes. -/
theorem be128_inj {c d : Block} (h : be128 c = be128 d) : c = d := by
  ext i hi
  have := bePrefix_inj c d 15 h i (by omega)
  rw [getD_eq_getElem _ _ hi, getD_eq_getElem _ _ hi] at this
  rw [this]

end Sys2Proof.Machine
end

