-- ==== Sys2Proof/Laws/PerInstr.lean ====
section
/-! SUPPORT. The per-instruction families: what holds of each command as syntax. -/

namespace Sys2Proof.Laws.EncodeDecode

/-- The command is well formed, its word has RSV = 0 and its own OP, and both readings of the word give it back
(30_encoding.md R110, R112). -/
def Statement (i : Instr) : Prop :=
  i.wf = true ∧ rsvField (encode i) = 0 ∧ opField (encode i) = opcode i ∧ decode (encode i) = .ok i ∧
    decodeTableWord 32 (encode i).toNat = some i

theorem keysched : Statement .keysched := by unfold Statement; decide
theorem encBlock : Statement .encBlock := by unfold Statement; decide
theorem decBlock : Statement .decBlock := by unfold Statement; decide
theorem ecbEnc : Statement .ecbEnc := by unfold Statement; decide
theorem ecbDec : Statement .ecbDec := by unfold Statement; decide
theorem ctrEnc : Statement .ctrEnc := by unfold Statement; decide
theorem ctrDec : Statement .ctrDec := by unfold Statement; decide

end Sys2Proof.Laws.EncodeDecode
end

