-- ==== Sys2Proof/Laws/Step.lean ====
section
/-! SUPPORT. What a step can do: one inversion for the step, one for a write, and the registers behind the offsets. -/

namespace Sys2Proof.Machine

/-- The state a step works on: the input taken off the list. -/
def State.taken (s : State) : State := { s with inputs := s.inputs.tail }

/-- Everything a step that answers a next state can have done. -/
theorem step_next_cases {s t : State} (h : step s = .next t) :
    (t = s.taken ∧ (s.rstN = false ∨ s.phase = .idle) ∧ (s.inputs = [] ∨ s.inputs.head? = some .engine)) ∨
    (∃ op, s.rstN = true ∧ s.phase = .running op ∧ (s.inputs = [] ∨ s.inputs.head? = some .engine) ∧
      exec op s.taken = .next t) ∨
    (s.inputs.head? = some .rstLow ∧ t = powerOnReset s.taken) ∨
    (s.inputs.head? = some .rstHigh ∧ t = { s.taken with rstN := true }) ∨
    (∃ x, s.inputs.head? = some (.bus x) ∧ transact x s.taken = .next t) := by
  have engine : engineStep s.taken = .next t →
      (t = s.taken ∧ (s.rstN = false ∨ s.phase = .idle)) ∨
      (∃ op, s.rstN = true ∧ s.phase = .running op ∧ exec op s.taken = .next t) := by
    intro he
    unfold engineStep at he
    split at he
    · rename_i op h1 h2
      exact .inr ⟨op, h1, h2, he⟩
    · rename_i h1 h2
      injection he with he
      exact .inl ⟨he.symm, .inr h2⟩
    · rename_i h1
      injection he with he
      exact .inl ⟨he.symm, .inl h1⟩
  unfold step nextStep at h
  split at h
  · rename_i hi
    have ht : s.taken = s := by cases s; simp_all [State.taken]
    rw [← ht] at h
    rcases engine h with ⟨h1, h2⟩ | ⟨op, h1, h2, h3⟩
    · exact .inl ⟨h1, h2, .inl hi⟩
    · exact .inr (.inl ⟨op, h1, h2, .inl hi, h3⟩)
  · rename_i i rest hi
    have ht : ({ s with inputs := rest } : State) = s.taken := by unfold State.taken; rw [hi]; rfl
    have hh : s.inputs.head? = some i := by rw [hi]; rfl
    rw [ht] at h
    unfold takeInput at h
    split at h
    · rename_i x
      exact .inr (.inr (.inr (.inr ⟨x, hh, h⟩)))
    · rcases engine h with ⟨h1, h2⟩ | ⟨op, h1, h2, h3⟩
      · exact .inl ⟨h1, h2, .inr hh⟩
      · exact .inr (.inl ⟨op, h1, h2, .inr hh, h3⟩)
    · injection h with h
      exact .inr (.inr (.inl ⟨hh, h.symm⟩))
    · injection h with h
      exact .inr (.inr (.inr (.inl ⟨hh, h.symm⟩)))

/-- Everything a transaction that answers a next state can have done. -/
theorem transact_next_cases {x : Txn} {s t : State} (h : transact x s = .next t) :
    (s.rstN = false ∧ t = respondInReset x s) ∨
    (s.rstN = true ∧ x.wf s.cfg = false ∧ t = busError s) ∨
    (s.rstN = true ∧ x.wf s.cfg = true ∧ (∃ off size, x = .read off size ∧ t = readReg (regAt off) s)) ∨
    (s.rstN = true ∧ x.wf s.cfg = true ∧
      (∃ off size v, x = .write off size v ∧ writeReg (regAt off) v s = .next t)) := by
  unfold transact at h
  split at h
  · rename_i hr
    injection h with h
    exact .inl ⟨by simpa using hr, h.symm⟩
  · rename_i hr
    have hr' : s.rstN = true := by simpa using hr
    split at h
    · rename_i hw
      injection h with h
      exact .inr (.inl ⟨hr', by simpa using hw, h.symm⟩)
    · rename_i hw
      have hw' : x.wf s.cfg = true := by simpa using hw
      split at h
      · rename_i off size
        injection h with h
        exact .inr (.inr (.inl ⟨hr', hw', off, size, rfl, h.symm⟩))
      · rename_i off size v
        exact .inr (.inr (.inr ⟨hr', hw', off, size, v, rfl, h⟩))

/-- A write of a command word while idle (60_exceptions.md R207): an error is reported or the command accepted. -/
theorem writeCmd_idle {w : Word} {s : State} (hp : s.phase = .idle) :
    (∃ i, decode w = .ok i ∧ writeCmd w s = .next (startCommand i s)) ∨
    (∃ e, decode w = .error e ∧ writeCmd w s = .next (commandError .badCmd s)) := by
  unfold writeCmd
  cases hd : decode w with
  | ok i => exact .inl ⟨i, rfl, exec_of_idle hp⟩
  | error e => exact .inr ⟨e, rfl, rfl⟩

/-- An accepted transaction of the register page is a word of it. -/
theorem Txn.wf_iff (c : Config) (x : Txn) :
    x.wf c = true ↔ x.size = .bits32 ∧ x.off % 4 = 0 ∧ x.off < c.windowBytes := by
  simp [Txn.wf, and_assoc]

/-! ### Steps on a transaction -/

/-- A presented transaction is what the step performs. -/
theorem step_of_presents {s : State} {x : Txn} {rest : List Input} (h : presents s x rest) :
    step s = transact x { s with inputs := rest } := by
  simp [step, nextStep, h.2, takeInput]

/-- An accepted read (20_memory.md R81). -/
theorem step_of_read {s : State} {off : Nat} {rest : List Input} (h : presents s (.read off .bits32) rest)
    (ha : off % 4 = 0) (hb : off < 0x1000 + s.cfg.dataBytes) :
    step s = .next (readReg (regAt off) { s with inputs := rest }) := by
  rw [step_of_presents h]
  have hr := h.1
  have hw : (Txn.read off .bits32).wf s.cfg = true := (Txn.wf_iff _ _).2 ⟨rfl, ha, hb⟩
  simp [transact, hr, hw]

/-- An accepted write (20_memory.md R81). -/
theorem step_of_write {s : State} {off : Nat} {v : Word} {rest : List Input}
    (h : presents s (.write off .bits32 v) rest) (ha : off % 4 = 0) (hb : off < 0x1000 + s.cfg.dataBytes) :
    step s = writeReg (regAt off) v { s with inputs := rest } := by
  rw [step_of_presents h]
  have hr := h.1
  have hw : (Txn.write off .bits32 v).wf s.cfg = true := (Txn.wf_iff _ _).2 ⟨rfl, ha, hb⟩
  simp [transact, hr, hw]

/-- The list of inputs that starts with a presented transaction. -/
theorem presents_of_head {s : State} {x : Txn} (hr : s.rstN = true) (h : s.inputs.head? = some (.bus x)) :
    presents s x s.inputs.tail := by
  refine ⟨hr, ?_⟩
  cases hi : s.inputs with
  | nil => rw [hi] at h; cases h
  | cons a l => rw [hi] at h; simp at h; subst h; rfl

/-- Where the engine's step falls, `engineNext` holds. -/
theorem engineNext_of_head {s : State} (hr : s.rstN = true) (h : s.inputs = [] ∨ s.inputs.head? = some .engine) :
    engineNext s s.inputs.tail := by
  refine ⟨hr, ?_⟩
  rcases h with h | h
  · exact .inr ⟨h, by rw [h]; rfl⟩
  · cases hi : s.inputs with
    | nil => rw [hi] at h; cases h
    | cons a l => rw [hi] at h; simp at h; subst h; exact .inl rfl

/-- A transaction presented while held in reset only gets its free response (70_reset_and_hazards.md R230). -/
theorem transact_of_held {s t : State} {x : Txn} (hr : s.rstN = false) (h : transact x s = .next t) :
    t = respondInReset x s := by
  rcases transact_next_cases h with ⟨_, h⟩ | ⟨h, _⟩ | ⟨h, _⟩ | ⟨h, _⟩
  · exact h
  all_goals (rw [hr] at h; cases h)

/-- One more step of a run. -/
theorem run_succ (k : Nat) (s : State) :
    run (k + 1) s =
      match step s with
      | .next t => run k t
      | .fault r => .fault r
      | .refused r => .refused r := by
  show Host.Core.run Sys2Proof.core (k + 1) s = _
  simp only [Host.Core.run]
  generalize h : Sys2Proof.core.step s = o
  rw [show step s = o from h]
  cases o <;> rfl

/-- BUSY is the phase (10_state.md R62). -/
theorem busy_iff (s : State) : busy s = true ↔ ∃ op, s.phase = .running op := by
  unfold busy
  cases s.phase <;> simp

end Sys2Proof.Machine
end

