-- ==== Sys2Proof/Tests/Slice0.lean ====
section
/-! SUPPORT. Tests: ill-formed terms, decoded words, one step of each command against 95_test_vectors.md, and for
every statement with hypotheses a state that meets them. -/

namespace Sys2Proof.Tests

open Sys2Proof Sys2Proof.Machine

/-! ### Ill-formed terms are refused -/

theorem test_config_default_size_legal : Config.wf ⟨4096, 0, Config.idConstant⟩ = true := by decide
theorem test_config_smallest_legal : Config.wf ⟨32, 0x1020 * 3, Config.idConstant⟩ = true := by decide
theorem test_config_not_multiple_of_16 : Config.wf ⟨40, 0, Config.idConstant⟩ = false := by decide
theorem test_config_too_small : Config.wf ⟨16, 0, Config.idConstant⟩ = false := by decide
theorem test_config_too_large : Config.wf ⟨1048592, 0, Config.idConstant⟩ = false := by decide
theorem test_config_base_unaligned : Config.wf ⟨4096, 0x1000, Config.idConstant⟩ = false := by decide
theorem test_config_wrong_id : Config.wf ⟨4096, 0, 0x4C454132#32⟩ = false := by decide

def cfg64 : Config := ⟨64, 0, Config.idConstant⟩

theorem test_txn_last_word_legal : (Txn.read 0x103C .bits32).wf cfg64 = true := by decide
theorem test_txn_narrow : (Txn.read 0x000 .bits8).wf cfg64 = false := by decide
theorem test_txn_reserved_size : (Txn.write 0x00C .reserved 1).wf cfg64 = false := by decide
theorem test_txn_misaligned : (Txn.read 0x00E .bits32).wf cfg64 = false := by decide
theorem test_txn_beyond_window : (Txn.read 0x1040 .bits32).wf cfg64 = false := by decide

/-- Two cells out of order, and one outside DATA, are no canonical buffer. -/
theorem test_memory_order : ¬ Memory.wf 64 ⟨0, [(4, 1), (3, 1)]⟩ ∧ ¬ Memory.wf 64 ⟨0, [(64, 1)]⟩ := by decide

/-! ### Decoding, words written from 30_encoding.md R110, R111 -/

theorem test_decode_keysched : decode 0b00000000000000000000000000000001#32 = .ok .keysched := by rfl
theorem test_decode_encBlock : decode 0b00000000000000000000000000000010#32 = .ok .encBlock := by rfl
theorem test_decode_decBlock : decode 0b00000000000000000000000000000011#32 = .ok .decBlock := by rfl
theorem test_decode_ecbEnc : decode 0b00000000000000000000000000000100#32 = .ok .ecbEnc := by rfl
theorem test_decode_ecbDec : decode 0b00000000000000000000000000000101#32 = .ok .ecbDec := by rfl
theorem test_decode_ctrEnc : decode 0b00000000000000000000000000000110#32 = .ok .ctrEnc := by rfl
theorem test_decode_ctrDec : decode 0b00000000000000000000000000000111#32 = .ok .ctrDec := by rfl

/-- The illegal words of V10, and bytes in the wrong order. -/
theorem test_decode_illegal :
    decode 0x00000000#32 = .error (.illegalOpcode 0x0) ∧ decode 0x00000008#32 = .error (.illegalOpcode 0x8) ∧
    decode 0x0000000F#32 = .error (.illegalOpcode 0xF) ∧ decode 0x00000011#32 = .error .reservedBits ∧
    decode 0x80000001#32 = .error .reservedBits ∧ decode 0xFFFFFFFF#32 = .error .reservedBits := ⟨rfl, rfl, rfl, rfl, rfl, rfl⟩

theorem test_decode_bytes :
    decodeBytes [0x06, 0x00, 0x00, 0x00, 0xAA] = .ok (.ctrEnc, [0xAA]) ∧
    decodeBytes [0x00, 0x00, 0x00, 0x06] = .error .reservedBits ∧ decodeBytes [0x01, 0x00] = .error .tooShort :=
  ⟨rfl, rfl, rfl⟩

theorem test_table_word : decodeTableWord 32 7 = some .ctrDec ∧ decodeTableWord 4 7 = some .ctrDec ∧
    decodeTableWord 40 7 = none ∧ decodeTableWord 32 0 = none := ⟨rfl, rfl, rfl, rfl⟩

/-! ### One step of each command -/

/-- A field of the next state; nothing where there is none. -/
def nextField {α : Type} (f : State → α) : Host.Outcome State Fault Refusal → Option α
  | .next t => some (f t)
  | .fault _ => none
  | .refused _ => none

/-- `n` bytes written as one hexadecimal number, first byte first. -/
def hexBytes (n v : Nat) : Bytes n := Vector.ofFn fun i => BitVec.ofNat 8 (v / 256 ^ (n - 1 - i.val))

/-- The key of V1. -/
def katKey : Quad := wordsLe (hexBytes 16 0x0f1e2d3c4b5a69788796a5b4c3d2e1f0)

/-- A block of 64 DATA bytes in the given phase, with KEY = V1's, the schedule in RK, and SRC, DST, LEN. -/
def at64 (p : Phase) (src dst len : Word) : State :=
  { State.reset with
    cfg := cfg64, phase := p, key := katKey, rk := deriveSchedule (bytesLe katKey), schedValid := true
    src := src, dst := dst, len := len }

/-- That block with `n` bytes at DATA address `a`. -/
def holding (s : State) (a n v : Nat) : State := { s with data := s.data.write a (hexBytes n v) }

/-- V3: the first and last six words of RK. -/
theorem test_keysched_rk :
    nextField (fun t => (t.rk.toList.take 6, t.rk.toList.drop 138, t.schedValid))
      (exec .keysched { at64 (.running .keysched) 0 0 0 with rk := freeRoundKeys 0, schedValid := false }) =
    some ([0x003a0fd4, 0x02497010, 0x194f7db1, 0x02497010, 0x090d0883, 0x02497010],
      [0x0bf6adba, 0xdf69029d, 0x5b72305a, 0xdf69029d, 0xcb47c19f, 0xdf69029d], true) := by decide +kernel

/-- V10: KEYSCHED has no check that SRC, DST or LEN could fail. -/
theorem test_keysched_accepted :
    nextField (fun t => (t.phase, t.done)) (exec .keysched (at64 .idle 0xFFFFFFFF 0xFFFFFFFF 0xFFFFFFFF)) =
      some (.running .keysched, false) := by decide +kernel

/-- V1, into the last 16 bytes of DATA. -/
theorem test_encBlock_kat :
    nextField (fun t => (t.data.read 48 16, t.data.read 0 16))
      (exec .encBlock (holding (at64 (.running .encBlock) 0 48 0) 0 16 0x101112131415161718191a1b1c1d1e1f)) =
    some (hexBytes 16 0x9fc84e3528c6c6185532c7a704648bfd, hexBytes 16 0x101112131415161718191a1b1c1d1e1f) := by
  decide +kernel

/-- V10: SRC + 16 = DATA_BYTES is in range, so the missing schedule is what is reported. -/
theorem test_encBlock_noSched :
    nextField (fun t => (t.err, t.done, t.phase)) (exec .encBlock { at64 .idle 48 0 0 with schedValid := false }) =
      some (.noSched, true, .idle) := by decide +kernel

/-- V1, in place. -/
theorem test_decBlock_kat :
    nextField (fun t => (t.data.read 16 16, t.done, t.phase))
      (exec .decBlock (holding (at64 (.running .decBlock) 16 16 0) 16 16 0x9fc84e3528c6c6185532c7a704648bfd)) =
    some (hexBytes 16 0x101112131415161718191a1b1c1d1e1f, true, .idle) := by decide +kernel

/-- V10: RANGE comes before NOSCHED. -/
theorem test_decBlock_range :
    nextField (fun t => t.err) (exec .decBlock { at64 .idle 0 49 0 with schedValid := false }) = some .range := by
  decide +kernel

/-- V12, first row: with the destination one block ahead the second block is the encryption of the first output. -/
theorem test_ecbEnc_overlap :
    nextField (fun t => t.data.read 0 48)
      (exec .ecbEnc (holding (at64 (.running .ecbEnc) 0 16 32) 0 48
        0x101112131415161718191a1b1c1d1e1f111013121514171619181b1a1d1c1f1e12131011161714151a1b18191e1f1c1d)) =
    some (hexBytes 48
      0x101112131415161718191a1b1c1d1e1f9fc84e3528c6c6185532c7a704648bfda9f31b205805de9e3edd3a07d8f433da) := by
  decide +kernel

/-- V10, S7: LENGTH before RANGE. -/
theorem test_ecbEnc_length :
    nextField (fun t => t.err) (exec .ecbEnc (at64 .idle 0xFFFFFFF0 0 17)) = some .length := by decide +kernel

/-- V8.2. -/
theorem test_ecbDec_two_blocks :
    nextField (fun t => t.data.read 32 32)
      (exec .ecbDec (holding (at64 (.running .ecbDec) 0 32 32) 0 32
        0x9fc84e3528c6c6185532c7a704648bfd9fc84e3528c6c6185532c7a704648bfd)) =
    some (hexBytes 32 0x101112131415161718191a1b1c1d1e1f101112131415161718191a1b1c1d1e1f) := by decide +kernel

/-- V10: one block too far. -/
theorem test_ecbDec_range :
    nextField (fun t => t.err) (exec .ecbDec (at64 .idle 0 16 64)) = some .range := by decide +kernel

/-- V8.4, last row: the counter wraps between the blocks; CTR stays and CTRW is 1. -/
theorem test_ctrEnc_wrap :
    nextField (fun t => (t.data.read 32 32, bytesLe t.ctrw, t.ctr))
      (exec .ctrEnc { holding (at64 (.running .ctrEnc) 0 32 32) 0 32
        0x000102030405060708090a0b0c0d0e0f101112131415161718191a1b1c1d1e1f with
          ctr := ⟨0xFFFFFFFF, 0xFFFFFFFF, 0xFFFFFFFF, 0xFFFFFFFF⟩ }) =
    some (hexBytes 32 0x77878cf2cd164b945a152d6b2c9ce40b58b1d6bcec456f38189a81b9e4c0faaa, hexBytes 16 1,
      ⟨0xFFFFFFFF, 0xFFFFFFFF, 0xFFFFFFFF, 0xFFFFFFFF⟩) := by decide +kernel

/-- V12, last row: the partial chunk reads what the first block wrote. -/
theorem test_ctrEnc_overlap :
    nextField (fun t => t.data.read 0 32)
      (exec .ctrEnc (holding (at64 (.running .ctrEnc) 0 8 20) 0 32
        0x101112131415161718191a1b1c1d1e1f111013121514171619181b1a1d1c1f1e)) =
    some (hexBytes 32 0x101112131415161758b1d6bcec456f38189a81b9e4c0faaaa86fb3641d1c1f1e) := by decide +kernel

/-- V8.5, V8.7: length 20, CTRW ends at C0 + 1. -/
theorem test_ctrDec_partial :
    nextField (fun t => (t.data.read 32 20, t.ctrw))
      (exec .ctrDec (holding (at64 (.running .ctrDec) 0 32 20) 0 20 0x48a1c6acfc557f28088a91a9f4d0eabaa0e420ce)) =
    some (hexBytes 20 0x000102030405060708090a0b0c0d0e0f10111213, ⟨0, 0, 0, 0x01000000⟩) := by decide +kernel

/-- V10: the last byte of DATA is in range for one byte and not for two. -/
theorem test_ctrDec_range :
    nextField (fun t => t.phase) (exec .ctrDec (at64 .idle 0 63 1)) = some (.running .ctrDec) ∧
    nextField (fun t => t.err) (exec .ctrDec (at64 .idle 0 63 2)) = some .range := by decide +kernel

/-! ### The port -/

/-- The block with these inputs to come. -/
def facing (s : State) (l : List Input) : State := { s with inputs := l }

/-- The fetched word runs: acceptance right after reset, and BADCMD (V10). -/
theorem test_withFetchWord :
    nextField (fun t => t.phase) (step (State.reset.withFetchWord 32 1)) = some (.running .keysched) ∧
    nextField (fun t => statusWord t) (step (State.reset.withFetchWord 32 2)) = some 0x00000402 ∧
    nextField (fun t => statusWord t) (step (State.reset.withFetchWord 32 8)) = some 0x00000102 := by decide +kernel

/-- V11: reads and writes while KEYSCHED runs. -/
theorem test_busy_access :
    nextField (fun t => (t.resp, t.accerr)) (step (facing (at64 (.running .keysched) 0 0 0) [rd 0x000])) =
      some (some ⟨some 0x4C454131, false⟩, false) ∧
    nextField (fun t => (t.resp, t.accerr)) (step (facing (at64 (.running .keysched) 0 0 0) [rd 0x040])) =
      some (some ⟨some 0, false⟩, true) ∧
    nextField (fun t => (t.src, t.accerr)) (step (facing (at64 (.running .keysched) 0x40 0 0) [wr 0x010 0x80])) =
      some (0x40, true) ∧
    nextField (fun t => (t.accerr, t.phase)) (step (facing (at64 (.running .keysched) 0 0 0) [wr 0x040 0x12345678])) =
      some (false, .running .keysched) := by decide +kernel

/-- V13: STATUS with DONE, SCHED_VALID and ACCERR set, and after WR STATUS, 0x0000000A (P5). -/
theorem test_status_word :
    statusWord { at64 .idle 0 0 0 with done := true, accerr := true } = 0x0000000E ∧
    nextField (fun t => statusWord t)
      (step (facing { at64 .idle 0 0 0 with done := true, accerr := true } [wr 0x008 0x0000000A])) =
      some 0x00000004 := by decide +kernel

/-- V6: word operations. -/
theorem test_word_operations :
    add32 0xffffffff 1 = 0 ∧ sub32 5 7 = 0xfffffffe ∧ rol32 0x12345678 9 = 0x68acf024 ∧
    ror32 0x12345678 9 = 0x3c091a2b ∧ rol32 1 32 = 1 := by decide

/-- V7: the carry between bytes, and the wrap. -/
theorem test_counter_carry :
    incCtr (hexBytes 16 0x000102030405060708090a0b0c0d0eff) = hexBytes 16 0x000102030405060708090a0b0c0d0f00 ∧
    incCtr (hexBytes 16 0x00ffffffffffffffffffffffffffffff) = hexBytes 16 0x01000000000000000000000000000000 ∧
    incCtr (hexBytes 16 0xffffffffffffffffffffffffffffffff) = hexBytes 16 0 := by decide +kernel

/-! ### Witnesses: for each statement with hypotheses, states and operands that meet them all

Sizes are those of the 64-byte block, and addresses stand at the ends of their ranges. -/

theorem witness_DecodeOfEncodeIsTheCommand : ∀ i : Instr, i.wf = true := by intro i; cases i <;> rfl

theorem witness_StepRunsTheWrittenCommand :
    ∃ (s : State) (w : Word) (i : Instr) (rest : List Input),
      s.phase = .idle ∧ presents s (.write 0x00C .bits32 w) rest ∧ decode w = .ok i :=
  ⟨facing (at64 .idle 0 0 0) [wr 0x00C 7, .engine], 7, .ctrDec, [.engine], rfl, ⟨rfl, rfl⟩, rfl⟩

/-- A draw in the list and an empty list; a running and an idle block. -/
theorem witness_StepRunsTheRunningCommand :
    engineNext (facing (at64 (.running .keysched) 0 0 0) [.engine]) [] ∧
    engineNext (facing (at64 (.running .ctrDec) 0 0 0) []) [] ∧
    engineNext (facing (at64 .idle 0 0 0) [.engine, .engine]) [.engine] :=
  ⟨⟨rfl, .inl rfl⟩, ⟨rfl, .inr ⟨rfl, rfl⟩⟩, ⟨rfl, .inl rfl⟩⟩

/-- The words next to the legal ones on both sides, and a reserved bit alone beside a legal opcode. -/
theorem witness_IllegalWordIsBadcmd :
    (∀ w, presents (facing (at64 .idle 0 0 0) [wr 0x00C w]) (.write 0x00C .bits32 w) []) ∧
    (0x00000011#32).extractLsb' 4 28 ≠ 0 ∧ (0x00000000#32).extractLsb' 0 4 = 0 ∧
    8 ≤ ((0x00000008#32).extractLsb' 0 4).toNat ∧ 8 ≤ ((0x0000000F#32).extractLsb' 0 4).toNat ∧
    (at64 .idle 0 0 0).phase = .idle :=
  ⟨fun _ => ⟨rfl, rfl⟩, by decide, by decide, by decide, by decide, rfl⟩

theorem witness_PassingCommandIsAccepted :
    (at64 .idle 48 48 0).phase = .idle ∧ inRange (at64 .idle 48 48 0) 16 ∧ (at64 .idle 48 48 0).schedValid = true ∧
    (at64 .idle 0 32 32).len.toNat % 16 = 0 ∧ inRange (at64 .idle 0 32 32) 32 ∧
    inRange (at64 .idle 63 0 1) (at64 .idle 63 0 1).len.toNat :=
  ⟨rfl, by unfold inRange; decide, rfl, by decide, by unfold inRange; decide, by unfold inRange; decide⟩

theorem witness_EcbLengthIsCheckedFirst :
    (at64 .idle 0xFFFFFFF0 0 17).phase = .idle ∧ (at64 .idle 0xFFFFFFF0 0 17).len.toNat % 16 ≠ 0 ∧
    (at64 .idle 0 0 16).len.toNat % 16 = 0 ∧ Instr.ctrEnc ∈ [Instr.keysched, .encBlock, .decBlock, .ctrEnc, .ctrDec] := by
  decide

/-- One byte too far at SRC, one block too far at DST, one byte too far for CTR, and the largest values, whose sums do
not wrap. -/
theorem witness_RangeIsReported :
    ¬ inRange (at64 .idle 49 0 0) 16 ∧ inRange (at64 .idle 48 0 0) 16 ∧
    inRange (at64 .idle 0 0 64) (at64 .idle 0 0 64).len.toNat ∧
    (at64 .idle 0 16 64).len.toNat % 16 = 0 ∧ ¬ inRange (at64 .idle 0 16 64) (at64 .idle 0 16 64).len.toNat ∧
    ¬ inRange (at64 .idle 0 63 2) (at64 .idle 0 63 2).len.toNat ∧
    ¬ inRange (at64 .idle 0xFFFFFFFF 0 1) (at64 .idle 0xFFFFFFFF 0 1).len.toNat ∧
    (at64 .idle 49 0 0).phase = .idle := by
  refine ⟨?_, ?_, ?_, by decide, ?_, ?_, ?_, rfl⟩ <;> (unfold inRange; decide)

theorem witness_BlockCommandNeedsASchedule :
    inRange { at64 .idle 48 48 0 with schedValid := false } 16 := by unfold inRange; decide

/-- Each check in turn: an illegal word, LENGTH over a bad range, RANGE, NOSCHED at the last block, and a pass. -/
theorem witness_ChecksRunInOrder :
    (∀ w, presents (facing (at64 .idle 0 0 0) [wr 0x00C w]) (.write 0x00C .bits32 w) []) ∧
    (∀ op, decode 0x00000009#32 ≠ .ok op) ∧ decode 0x00000004#32 = .ok .ecbEnc ∧ decode 0x00000002#32 = .ok .encBlock ∧
    (at64 .idle 0xFFFFFFF0 0 17).len.toNat % 16 ≠ 0 ∧ ¬ inRange (at64 .idle 0xFFFFFFF0 0 32) 32 ∧
    inRange { at64 .idle 48 48 0 with schedValid := false } 16 ∧ inRange (at64 .idle 48 48 0) 16 ∧
    (at64 .idle 48 48 0).schedValid = true := by
  refine ⟨fun _ => ⟨rfl, rfl⟩, fun op h => (by cases h), rfl, rfl, by decide, ?_, ?_, ?_, rfl⟩ <;>
    (unfold inRange; decide)

theorem witness_CommandIsRefusedWhileAnotherRuns :
    (at64 (.running .keysched) 0 0 0).phase = .running .keysched ∧ Instr.keysched ≠ .ctrDec := ⟨rfl, by decide⟩

theorem witness_CmdWriteLeavesOneOfTwoStates :
    (at64 .idle 0 0 0).phase = .idle ∧
    presents (facing (at64 .idle 0 0 0) [wr 0x00C 0x80000001]) (.write 0x00C .bits32 0x80000001) [] :=
  ⟨rfl, ⟨rfl, rfl⟩⟩

theorem witness_KeyschedCompletes : (at64 (.running .keysched) 0 0 0).phase = .running .keysched := rfl

theorem witness_EncBlockCompletes :
    (at64 (.running .encBlock) 0 48 0).phase = .running .encBlock ∧ inRange (at64 (.running .encBlock) 0 48 0) 16 :=
  ⟨rfl, by unfold inRange; decide⟩

theorem witness_DecBlockCompletes :
    (at64 (.running .decBlock) 48 48 0).phase = .running .decBlock ∧ inRange (at64 (.running .decBlock) 48 48 0) 16 :=
  ⟨rfl, by unfold inRange; decide⟩

/-- Overlapping ranges with the destination ahead are among the states covered. -/
theorem witness_EcbCompletesBlockByBlock :
    (at64 (.running .ecbEnc) 0 16 48).phase = .running .ecbEnc ∧ (at64 (.running .ecbEnc) 0 16 48).len.toNat % 16 = 0 ∧
    inRange (at64 (.running .ecbEnc) 0 16 48) (at64 (.running .ecbEnc) 0 16 48).len.toNat :=
  ⟨rfl, by decide, by unfold inRange; decide⟩

/-- In place, and with the ranges touching. -/
theorem witness_EcbBlocksAreIndependent :
    inRange (at64 (.running .ecbDec) 0 0 64) 64 ∧ noOverrun (at64 (.running .ecbDec) 0 0 64) 64 ∧
    inRange (at64 (.running .ecbDec) 0 32 32) 32 ∧ noOverrun (at64 (.running .ecbDec) 0 32 32) 32 ∧
    (at64 (.running .ecbDec) 0 32 32).phase = .running .ecbDec := by
  refine ⟨?_, ?_, ?_, ?_, rfl⟩ <;> (first | unfold inRange | unfold noOverrun) <;> decide

/-- A partial last chunk that ends at the last byte of DATA, with an overlap. -/
theorem witness_CtrCompletesChunkByChunk :
    (at64 (.running .ctrEnc) 0 8 56).phase = .running .ctrEnc ∧
    inRange (at64 (.running .ctrEnc) 0 8 56) (at64 (.running .ctrEnc) 0 8 56).len.toNat :=
  ⟨rfl, by unfold inRange; decide⟩

theorem witness_CtrOutputXorInputIsTheKeystream :
    (at64 (.running .ctrDec) 0 31 31).phase = .running .ctrDec ∧
    inRange (at64 (.running .ctrDec) 0 31 31) (at64 (.running .ctrDec) 0 31 31).len.toNat ∧
    noOverrun (at64 (.running .ctrDec) 0 31 31) (at64 (.running .ctrDec) 0 31 31).len.toNat ∧
    (30 < (at64 (.running .ctrDec) 0 31 31).len.toNat ∧
      be128 (hexBytes 16 1) = (be128 (bytesLe (at64 (.running .ctrDec) 0 31 31).ctr) + 30 / 16) % 2 ^ 128) :=
  ⟨rfl, by unfold inRange; decide, by unfold noOverrun; decide, by decide +kernel⟩

theorem witness_CtrDecryptIsCtrEncrypt : (at64 .idle 0 0 64).phase = .idle := rfl

theorem witness_WorkingCounterAdvances :
    (at64 (.running .ctrDec) 0 0 64).phase = .running .ctrDec ∧
    inRange (at64 (.running .ctrDec) 0 0 64) (at64 (.running .ctrDec) 0 0 64).len.toNat :=
  ⟨rfl, by unfold inRange; decide⟩

/-- SRC = DST = DATA_BYTES, idle and running. -/
theorem witness_ZeroLengthTouchesNoData :
    (at64 .idle 64 64 0).len = 0 ∧ inRange (at64 .idle 64 64 0) 0 ∧ (at64 .idle 64 64 0).phase = .idle ∧
    inRange (at64 (.running .ctrEnc) 64 64 0) 0 ∧ (at64 (.running .ctrEnc) 64 64 0).phase = .running .ctrEnc ∧
    Instr.ctrEnc ∈ [Instr.ecbEnc, .ecbDec, .ctrEnc, .ctrDec] :=
  ⟨rfl, by unfold inRange; decide, rfl, by unfold inRange; decide, rfl, by decide⟩

/-- Encrypt from 0 to 32, then decrypt in place. -/
theorem witness_EcbRoundTrip :
    ∃ s t u v : State, s.phase = .running .ecbEnc ∧ s.len.toNat % 16 = 0 ∧ inRange s s.len.toNat ∧
      noOverrun s s.len.toNat ∧ exec .ecbEnc s = .next t ∧
      u.phase = .running .ecbDec ∧ u.data = t.data ∧ u.key = s.key ∧ u.len = s.len ∧ u.src = s.dst ∧
      inRange u u.len.toNat ∧ noOverrun u u.len.toNat ∧ exec .ecbDec u = .next v := by
  have r1 : inRange (at64 (.running .ecbEnc) 0 32 32) 32 := by unfold inRange; decide
  refine ⟨at64 (.running .ecbEnc) 0 32 32, _, { at64 (.running .ecbDec) 32 32 32 with data := _ }, _, rfl, by decide,
    r1, by unfold noOverrun; decide, exec_of_running rfl (rangeFails_of_inRange rfl r1), rfl, rfl, rfl, rfl, rfl, ?_, ?_,
    exec_of_running rfl (by simp [rangeFails, dataLength, byteLength, srcOffset, dstOffset, at64, cfg64])⟩
  · exact ⟨by simp [at64, cfg64], by simp [at64, cfg64]⟩
  · exact .inl (by simp [at64])

/-- Length 20: encrypt from 0 to 32, decrypt with the same operation in place. -/
theorem witness_CtrRoundTrip :
    ∃ s t u v : State, s.phase = .running .ctrEnc ∧ inRange s s.len.toNat ∧ noOverrun s s.len.toNat ∧
      exec .ctrEnc s = .next t ∧ u.phase = .running .ctrDec ∧ u.data = t.data ∧ u.key = s.key ∧ u.ctr = s.ctr ∧
      u.len = s.len ∧ u.src = s.dst ∧ inRange u u.len.toNat ∧ noOverrun u u.len.toNat ∧ exec .ctrDec u = .next v := by
  have r1 : inRange (at64 (.running .ctrEnc) 0 32 20) 20 := by unfold inRange; decide
  refine ⟨at64 (.running .ctrEnc) 0 32 20, _, { at64 (.running .ctrDec) 32 32 20 with data := _ }, _, rfl,
    r1, by unfold noOverrun; decide, exec_of_running rfl (rangeFails_of_inRange rfl r1), rfl, rfl, rfl, rfl, rfl, rfl,
    ?_, ?_, exec_of_running rfl (by simp [rangeFails, dataLength, byteLength, srcOffset, dstOffset, at64, cfg64])⟩
  · exact ⟨by simp [at64, cfg64], by simp [at64, cfg64]⟩
  · exact .inl (by simp [at64])

/-- One witness per kind of command. -/
theorem witness_CommandWritesOnlyItsColumn :
    (∃ t, exec .keysched (at64 (.running .keysched) 0 0 0) = .next t) ∧
    (∃ t, exec .encBlock (at64 (.running .encBlock) 48 48 0) = .next t) ∧
    (∃ t, exec .ecbDec (at64 (.running .ecbDec) 0 0 64) = .next t) ∧
    (∃ t, exec .ctrEnc (at64 (.running .ctrEnc) 0 1 63) = .next t) :=
  ⟨⟨_, exec_of_running rfl (by decide)⟩, ⟨_, exec_of_running rfl (by decide)⟩, ⟨_, exec_of_running rfl (by decide)⟩,
    ⟨_, exec_of_running rfl (by decide)⟩⟩

/-- The three reasons for a bus error, the last at the first offset beyond the window; and the last word inside it. -/
theorem witness_BusErrorChangesNothing :
    presents (facing (at64 .idle 0 0 0) [.bus (.read 0 .bits16)]) (.read 0 .bits16) [] ∧
    BusSize.bits16 ≠ .bits32 ∧
    presents (facing (at64 (.running .keysched) 0 0 0) [wr 0x002 1]) (.write 0x002 .bits32 1) [] ∧ 0x002 % 4 ≠ 0 ∧
    presents (facing (at64 .idle 0 0 0) [rd 0x1040]) (.read 0x1040 .bits32) [] ∧
    0x1000 + (at64 .idle 0 0 0).cfg.dataBytes ≤ 0x1040 ∧
    presents (facing (at64 .idle 0 0 0) [rd 0x103C]) (.read 0x103C .bits32) [] ∧
    0x103C < 0x1000 + (at64 .idle 0 0 0).cfg.dataBytes :=
  ⟨⟨rfl, rfl⟩, by decide, ⟨rfl, rfl⟩, by decide, ⟨rfl, rfl⟩, by decide, ⟨rfl, rfl⟩, by decide⟩

def busyState (l : List Input) : State := facing (at64 (.running .encBlock) 0 48 0) l

/-- The first and last refused offset of each range. -/
theorem witness_BusyAccessIsRefused :
    (∀ l, (busyState l).phase = .running .encBlock) ∧
    (∀ off ∈ [0x040, 0x04C, 0x1000, 0x103C], presents (busyState [rd off]) (.read off .bits32) [] ∧ off % 4 = 0 ∧
      off < 0x1000 + cfg64.dataBytes ∧ (0x040 ≤ off ∧ off < 0x050 ∨ 0x1000 ≤ off)) ∧
    (∀ off ∈ [0x00C, 0x018, 0x020, 0x03C, 0x1000, 0x103C],
      presents (busyState [wr off 1]) (.write off .bits32 1) [] ∧ off % 4 = 0 ∧ off < 0x1000 + cfg64.dataBytes ∧
      (0x00C ≤ off ∧ off < 0x01C ∨ 0x020 ≤ off ∧ off < 0x040 ∨ 0x1000 ≤ off)) :=
  ⟨fun _ => rfl, by unfold presents; decide, by unfold presents; decide⟩

/-- Offsets at the ends of the register page's ranges, idle, and busy outside CTRW. -/
theorem witness_RegisterPageReads :
    (∀ off ∈ [0x000, 0x004, 0x008, 0x00C, 0x010, 0x014, 0x018, 0x01C, 0x020, 0x02C, 0x030, 0x03C, 0x040, 0x04C, 0x050,
        0xFFC],
      presents (facing (at64 .idle 0 0 0) [rd off]) (.read off .bits32) [] ∧ off % 4 = 0 ∧ off < 0x1000 ∧
      (at64 .idle 0 0 0).phase = .idle) ∧
    (∀ off ∈ [0x000, 0x03C, 0x050, 0xFFC],
      presents (busyState [rd off]) (.read off .bits32) [] ∧ ¬(0x040 ≤ off ∧ off < 0x050)) :=
  ⟨by unfold presents; decide, by unfold presents; decide⟩

theorem witness_StatusWriteClearsWhereOne :
    presents (busyState [wr 0x008 0x0000000A]) (.write 0x008 .bits32 0x0000000A) [] ∧
    presents (busyState [rd 0x008]) (.read 0x008 .bits32) [] := ⟨⟨rfl, rfl⟩, ⟨rfl, rfl⟩⟩

/-- Each RW and WO register while idle, each ignored offset while busy. -/
theorem witness_RegisterPageWrites :
    (∀ off ∈ [0x010, 0x014, 0x018, 0x020, 0x02C, 0x030, 0x03C],
      presents (facing (at64 .idle 0 0 0) [wr off 5]) (.write off .bits32 5) [] ∧ off % 4 = 0 ∧ off < 0x1000 ∧
      (at64 .idle 0 0 0).phase = .idle) ∧
    0x02C = 0x020 + 4 * (3 : Fin 4).val ∧ 0x030 = 0x030 + 4 * (0 : Fin 4).val ∧
    (∀ off ∈ [0x000, 0x01C, 0x040, 0x04C, 0xFFC],
      presents (busyState [wr off 5]) (.write off .bits32 5) [] ∧ off % 4 = 0 ∧ off < 0x1000 ∧
      (off = 0x000 ∨ off = 0x01C ∨ 0x040 ≤ off)) :=
  ⟨by unfold presents; decide, by decide, by decide, by unfold presents; decide⟩

/-- The first and the last word of DATA. -/
theorem witness_DataWindowIsLittleEndian :
    (at64 .idle 0 0 0).phase = .idle ∧
    (∀ m ∈ [0, 15], 4 * m < (at64 .idle 0 0 0).cfg.dataBytes ∧
      presents (facing (at64 .idle 0 0 0) [rd (0x1000 + 4 * m)]) (.read (0x1000 + 4 * m) .bits32) [] ∧
      presents (facing (at64 .idle 0 0 0) [wr (0x1000 + 4 * m) 9]) (.write (0x1000 + 4 * m) .bits32 9) []) :=
  ⟨rfl, by unfold presents; decide⟩

theorem witness_CtrlWriteStoresIe :
    presents (busyState [wr 0x004 0xFFFFFFFD]) (.write 0x004 .bits32 0xFFFFFFFD) [] ∧
    (0xFFFFFFFD : Word).getLsbD 1 = false := ⟨⟨rfl, rfl⟩, by decide⟩

/-- Idle, and each kind of running command, SRST alone and with IE. -/
theorem witness_SoftResetResetsRegisters :
    presents (facing (at64 .idle 0 0 0) [wr 0x004 2]) (.write 0x004 .bits32 2) [] ∧ (2 : Word).getLsbD 1 = true ∧
    presents (facing (at64 (.running .keysched) 0 0 0) [wr 0x004 3]) (.write 0x004 .bits32 3) [] ∧
    (3 : Word).getLsbD 1 = true ∧
    presents (busyState [wr 0x004 2]) (.write 0x004 .bits32 2) [] ∧
    presents (facing (at64 (.running .ctrDec) 0 0 64) [wr 0x004 2]) (.write 0x004 .bits32 2) [] :=
  ⟨⟨rfl, rfl⟩, by decide, ⟨rfl, rfl⟩, by decide, ⟨rfl, rfl⟩, ⟨rfl, rfl⟩⟩

theorem witness_PowerOnResetResetsRegisters : (busyState [.rstLow]).inputs = .rstLow :: [] := rfl

/-- The block held in reset. -/
def heldState (l : List Input) : State :=
  { State.reset with cfg := cfg64, rstN := false, inputs := l }

theorem witness_NothingHappensWhileHeldInReset :
    (heldState [wr 0x00C 1]).rstN = false ∧ (heldState [wr 0x00C 1]).inputs = .bus (.write 0x00C .bits32 1) :: [] ∧
    (heldState [.engine]).inputs = .engine :: [] ∧ (heldState [.rstHigh]).inputs = .rstHigh :: [] :=
  ⟨rfl, rfl, rfl, rfl⟩

/-- A sound state with a running command. -/
theorem busyState_inv (l : List Input) : (busyState l).Inv where
  cfgLegal := by show cfg64.wf = true; decide
  dataCanonical := by show Memory.wf 64 ⟨0, []⟩; decide
  runningChecked := by
    intro op h
    obtain rfl : Instr.encBlock = op := by injection h
    exact ⟨rfl, rfl, by show checkCommand .encBlock (at64 (.running .encBlock) 0 48 0) = none; decide⟩
  noSchedErr := by intro h; cases h
  held := by intro h; cases h

/-- A sound state while held in reset. -/
theorem heldState_inv (l : List Input) : (heldState l).Inv where
  cfgLegal := by show cfg64.wf = true; decide
  dataCanonical := by show Memory.wf 64 ⟨0, []⟩; decide
  runningChecked := by intro op h; cases h
  noSchedErr := by intro h; cases h
  held := fun _ => ⟨rfl, rfl, rfl, rfl, rfl, rfl, rfl, rfl, rfl, rfl, rfl, rfl, rfl⟩

/-- From a sound state, a step that completes a command. -/
theorem witness_EveryStepKeepsSoundness : (busyState [.engine]).Inv ∧ ∃ t, step (busyState [.engine]) = .next t :=
  ⟨busyState_inv _, _, exec_of_running (s := busyState []) rfl (by decide)⟩

theorem witness_SoundStateNeverStops : (busyState [rd 0x1000]).Inv ∧ (heldState [wr 0x00C 1]).Inv :=
  ⟨busyState_inv _, heldState_inv _⟩

/-- BUSY ends by a completion, by `rst_n`, and by a soft reset. -/
theorem witness_OnlyCompletionOrResetEndsBusy :
    (∃ t, step (busyState []) = .next t ∧ t.phase ≠ .running .encBlock) ∧
    (∃ t, step (busyState [.rstLow]) = .next t ∧ t.phase ≠ .running .encBlock) ∧
    (∃ t, step (busyState [wr 0x004 2]) = .next t ∧ t.phase ≠ .running .encBlock) :=
  ⟨⟨_, exec_of_running (s := busyState []) rfl (by decide), by intro h; cases h⟩,
    ⟨_, rfl, by intro h; cases h⟩, ⟨_, rfl, by intro h; cases h⟩⟩

/-- DONE is set by a completion and by a command error. -/
theorem witness_OnlyCompletionOrErrorSetsDone :
    (∃ t, step (busyState []) = .next t ∧ (busyState []).done = false ∧ t.done = true) ∧
    (∃ t, step (facing (at64 .idle 0 0 0) [wr 0x00C 8]) = .next t ∧ (at64 .idle 0 0 0).done = false ∧ t.done = true) :=
  ⟨⟨_, exec_of_running (s := busyState []) rfl (by decide), rfl, rfl⟩, ⟨_, rfl, rfl, rfl⟩⟩

/-- SCHED_VALID changes by a derivation and by a reset. -/
theorem witness_OnlyDerivationOrResetWritesRk :
    (∃ t, step { at64 (.running .keysched) 0 0 0 with schedValid := false } = .next t ∧ t.schedValid ≠ false) ∧
    (∃ t, step (busyState [wr 0x004 2]) = .next t ∧ t.schedValid ≠ (busyState [wr 0x004 2]).schedValid) :=
  ⟨⟨_, exec_of_running (s := { at64 (.running .keysched) 0 0 0 with schedValid := false }) rfl (by decide),
    by intro h; cases h⟩, ⟨_, rfl, by intro h; cases h⟩⟩

theorem witness_BusyFreezesWhatTheCommandUses :
    presents (busyState [wr 0x020 0]) (.write 0x020 .bits32 0) [] ∧ isSoftReset (.write 0x020 .bits32 0) = false ∧
    presents (busyState [wr 0x004 1]) (.write 0x004 .bits32 1) [] ∧ isSoftReset (.write 0x004 .bits32 1) = false :=
  ⟨⟨rfl, rfl⟩, rfl, ⟨rfl, rfl⟩, rfl⟩

/-- Two refused writes before the completion. -/
theorem witness_LatencyDoesNotChangeTheResult :
    ∃ u, (busyState [wr 0x010 1, wr 0x1000 1, .engine, rd 0x008]).rstN = true ∧
      (∀ x ∈ [Txn.write 0x010 .bits32 1, .write 0x1000 .bits32 1], isSoftReset x = false) ∧
      (busyState [wr 0x010 1, wr 0x1000 1, .engine, rd 0x008]).inputs =
        [Txn.write 0x010 .bits32 1, .write 0x1000 .bits32 1].map .bus ++ .engine :: [rd 0x008] ∧
      exec .encBlock (busyState [wr 0x010 1, wr 0x1000 1, .engine, rd 0x008]) = .next u :=
  ⟨_, rfl, by decide, rfl, exec_of_running rfl (by decide)⟩

/-- A refused write and the draw before another command, and a list without a draw; the second clause also holds of a
list with a reset. -/
theorem witness_EveryCommandCompletes :
    (∀ l, (busyState l).Inv ∧ (busyState l).phase = .running .encBlock) ∧
    (∀ i ∈ (busyState [wr 0x010 1, .engine, wr 0x00C 1]).inputs, isReset i = false) ∧
    (∀ i ∈ (busyState []).inputs, isReset i = false) ∧ (busyState [.rstLow, .rstHigh]).Inv := by
  refine ⟨fun l => ⟨busyState_inv l, rfl⟩, ?_, ?_, busyState_inv _⟩
  · intro i hi
    simp only [busyState, facing, List.mem_cons, List.not_mem_nil, or_false] at hi
    rcases hi with rfl | rfl | rfl <;> rfl
  · intro i hi
    cases hi

theorem witness_KeyAndScheduleCannotBeReadBack :
    ∃ t, presents (facing (at64 .idle 0 0 0) [rd 0x020]) (.read 0x020 .bits32) [] ∧
      step (facing (at64 .idle 0 0 0) [rd 0x020]) = .next t :=
  ⟨_, ⟨rfl, rfl⟩, rfl⟩

theorem witness_ParametersNeverChange : ∃ t, step (facing (at64 .idle 0 0 0) [wr 0x004 2]) = .next t := ⟨_, rfl⟩

end Sys2Proof.Tests
end

section
/-! PROOFS. What every operation of the machine does to the parameters (00_scope.md R9) and to the list of inputs
still to come (log 8): a step takes its input off the list first, and after that nothing writes either field. -/

namespace Sys2Proof.Machine

/-! ### The operations that always answer a state -/

theorem startCommand_cfg_inputs (i : Instr) (s : State) :
    (startCommand i s).cfg = s.cfg ∧ (startCommand i s).inputs = s.inputs := by
  rcases startCommand_cases i s with ⟨_, h⟩ | ⟨code, _, h⟩
  · simp [h]
  · simp [h]

theorem softReset_cfg_inputs (s : State) :
    (softReset s).cfg = s.cfg ∧ (softReset s).inputs = s.inputs := by
  simp [softReset]

theorem powerOnReset_cfg_inputs (s : State) :
    (powerOnReset s).cfg = s.cfg ∧ (powerOnReset s).inputs = s.inputs := by
  simp [powerOnReset]

/-- With SRST the write is a soft reset, without it a write of IE (10_state.md R45, R46). -/
theorem writeCtrl_cfg_inputs (v : Word) (s : State) :
    (writeCtrl v s).cfg = s.cfg ∧ (writeCtrl v s).inputs = s.inputs := by
  unfold writeCtrl
  split
  · simp [softReset_cfg_inputs]
  · simp

/-- A read only answers, and sets ACCERR where it is refused (20_memory.md R92). -/
theorem readReg_cfg_inputs (r : Reg) (s : State) :
    (readReg r s).cfg = s.cfg ∧ (readReg r s).inputs = s.inputs := by
  unfold readReg
  split
  · simp
  · simp

theorem respondInReset_cfg_inputs (x : Txn) (s : State) :
    (respondInReset x s).cfg = s.cfg ∧ (respondInReset x s).inputs = s.inputs := by
  cases x with
  | read off size => simp [respondInReset]
  | write off size v => simp [respondInReset]

/-! ### The operations that can stop -/

/-- A command writes neither field, whether it starts, completes or is refused (30_encoding.md R113). -/
theorem exec_cfg_inputs {i : Instr} {s t : State} (h : exec i s = .next t) :
    t.cfg = s.cfg ∧ t.inputs = s.inputs := by
  rcases exec_next_cases h with ⟨_, rfl⟩ | ⟨_, _, rfl⟩ | ⟨_, _, _, rfl⟩
  · exact startCommand_cfg_inputs i s
  · simp [commandEffect_frame]
  · simp

theorem writeCmd_cfg_inputs {w : Word} {s t : State} (h : writeCmd w s = .next t) :
    t.cfg = s.cfg ∧ t.inputs = s.inputs := by
  unfold writeCmd at h
  split at h
  · exact exec_cfg_inputs h
  · cases h
    simp

theorem storeReg_cfg_inputs {r : Reg} {v : Word} {s t : State} (h : storeReg r v s = .next t) :
    t.cfg = s.cfg ∧ t.inputs = s.inputs := by
  cases r with
  | cmd => exact writeCmd_cfg_inputs h
  | ctrl =>
    cases h
    exact writeCtrl_cfg_inputs v s
  | status =>
    cases h
    simp
  | id | src | dst | len | key | ctr | ctrw | reserved | data =>
    cases h
    exact ⟨rfl, rfl⟩

theorem writeReg_cfg_inputs {r : Reg} {v : Word} {s t : State} (h : writeReg r v s = .next t) :
    t.cfg = s.cfg ∧ t.inputs = s.inputs := by
  unfold writeReg at h
  split at h
  · cases h
    simp
  · simpa using storeReg_cfg_inputs h

theorem transact_cfg_inputs {x : Txn} {s t : State} (h : transact x s = .next t) :
    t.cfg = s.cfg ∧ t.inputs = s.inputs := by
  rcases transact_next_cases h with
    ⟨_, rfl⟩ | ⟨_, _, rfl⟩ | ⟨_, _, off, _, _, rfl⟩ | ⟨_, _, off, _, v, _, hw⟩
  · exact respondInReset_cfg_inputs x s
  · simp [busError]
  · exact readReg_cfg_inputs (regAt off) s
  · exact writeReg_cfg_inputs hw

/-! ### The step -/

/-- A step leaves both fields as they are once its input is off the list (log 8). -/
theorem step_cfg_inputs {s t : State} (h : step s = .next t) :
    t.cfg = s.taken.cfg ∧ t.inputs = s.taken.inputs := by
  rcases step_next_cases h with
    ⟨rfl, _⟩ | ⟨_, _, _, _, hexec⟩ | ⟨_, rfl⟩ | ⟨_, rfl⟩ | ⟨_, _, hbus⟩
  · exact ⟨rfl, rfl⟩
  · exact exec_cfg_inputs hexec
  · exact powerOnReset_cfg_inputs s.taken
  · exact ⟨rfl, rfl⟩
  · exact transact_cfg_inputs hbus

/-- Settles O55: `State.taken` is the state with its parameters as they were and the first input gone. -/
theorem parametersNeverChange : Obligations.ParametersNeverChange := by
  intro s t h
  exact step_cfg_inputs h

end Sys2Proof.Machine
end

section
/-! PROOFS. The register page (10_state.md section 2): which register each offset names, and what an accepted access
of it does, idle or busy. -/

namespace Sys2Proof.Machine

/-! ### The offsets -/

theorem pageReg_of_ge {w : Nat} (h : 20 ≤ w) : pageReg w = .reserved := by
  obtain ⟨k, rfl⟩ := Nat.exists_eq_add_of_le' h
  rfl

/-- The rest of the register page is reserved (10_state.md R40). -/
theorem regAt_of_ge_0x050 {off : Nat} (h : 0x050 ≤ off) (hp : off < 0x1000) : regAt off = .reserved := by
  rw [regAt, if_pos hp, pageReg_of_ge (by omega)]

/-- Each word of KEY, CTR and CTRW stands at its own offset (10_state.md R40). -/
theorem regAt_key (j : Fin 4) : regAt (0x020 + 4 * j.val) = .key j := by
  revert j
  decide

theorem regAt_ctr (j : Fin 4) : regAt (0x030 + 4 * j.val) = .ctr j := by
  revert j
  decide

theorem regAt_ctrw (j : Fin 4) : regAt (0x040 + 4 * j.val) = .ctrw j := by
  revert j
  decide

/-- The word of four that an aligned offset in a range of 16 bytes names. -/
theorem exists_quad_offset {base off : Nat} (hb : base % 4 = 0) (ha : off % 4 = 0) (h : base ≤ off)
    (h' : off < base + 16) : ∃ j : Fin 4, off = base + 4 * j.val :=
  ⟨⟨(off - base) / 4, by omega⟩, by simp only; omega⟩

theorem pageReg_eq_ctrl {w : Nat} (h : pageReg w = .ctrl) : w = 1 := by
  have named : ∀ w < 20, pageReg w = .ctrl → w = 1 := by decide
  by_cases hw : w < 20
  · exact named w hw h
  · rw [pageReg_of_ge (by omega)] at h
    cases h

/-- Only offset 4 names CTRL (10_state.md R40). -/
theorem regAt_eq_ctrl {off : Nat} (ha : off % 4 = 0) (h : regAt off = .ctrl) : off = 0x004 := by
  unfold regAt at h
  split at h
  · have := pageReg_eq_ctrl h
    omega
  · cases h

theorem readRefusedWhenBusy_pageReg {w : Nat} (h : readRefusedWhenBusy (pageReg w) = true) : 16 ≤ w ∧ w < 20 := by
  have named : ∀ w < 20, readRefusedWhenBusy (pageReg w) = true → 16 ≤ w := by decide
  by_cases hw : w < 20
  · exact ⟨named w hw h, hw⟩
  · rw [pageReg_of_ge (by omega)] at h
    cases h

/-- In the register page only CTRW is refused to a read while busy (20_memory.md R92). -/
theorem readRefusedWhenBusy_regAt_of_not_ctrw {off : Nat} (hp : off < 0x1000)
    (h : ¬(0x040 ≤ off ∧ off < 0x050)) : readRefusedWhenBusy (regAt off) = false := by
  rw [regAt, if_pos hp]
  by_contra hn
  have := readRefusedWhenBusy_pageReg (Bool.eq_true_of_not_eq_false hn)
  omega

/-! ### The values -/

theorem quadGet_quadSet (q : Quad) (v : Word) (i j : Fin 4) :
    quadGet (quadSet q v j) i = if i = j then v else quadGet q i := by
  fin_cases j <;> fin_cases i <;> rfl

/-- CTRL reads IE in bit 0 (10_state.md R45 to R47). -/
theorem ctrlWord_eq (s : State) : ctrlWord s = if s.ie then 1 else 0 := by
  unfold ctrlWord
  cases s.ie <;> rfl

/-- The reads of the register page that answer 0: CMD, KEY and the reserved offsets (10_state.md R42, R54, R58). -/
theorem readValue_regAt_eq_zero (s : State) {off : Nat} (ha : off % 4 = 0) (hp : off < 0x1000)
    (h : off = 0x00C ∨ off = 0x01C ∨ 0x020 ≤ off ∧ off < 0x030 ∨ 0x050 ≤ off) :
    readValue (regAt off) s = 0 := by
  rcases h with rfl | rfl | ⟨h1, h2⟩ | h
  · rfl
  · rfl
  · obtain ⟨j, rfl⟩ := exists_quad_offset rfl ha h1 h2
    rw [regAt_key]
    rfl
  · rw [regAt_of_ge_0x050 h hp]
    rfl

/-! ### Accesses that are not refused -/

/-- No access is refused while idle, and some never are. -/
theorem refused_eq_false {s : State} {refusedWhenBusy : Bool} (h : s.phase = .idle ∨ refusedWhenBusy = false) :
    (busy s && refusedWhenBusy) = false := by
  rcases h with h | h
  · simp [busy, h]
  · rw [h, Bool.and_false]

/-- A read that is not refused answers the register's value and changes nothing else. -/
theorem step_of_performed_read {s : State} {off : Nat} {rest : List Input}
    (hx : presents s (.read off .bits32) rest) (ha : off % 4 = 0) (hb : off < 0x1000 + s.cfg.dataBytes)
    (h : s.phase = .idle ∨ readRefusedWhenBusy (regAt off) = false) :
    step s = .next { s with inputs := rest, resp := some ⟨some (readValue (regAt off) s), false⟩ } := by
  rw [step_of_read hx ha hb, readReg, refused_eq_false (s := { s with inputs := rest }) h]
  rfl

/-- A write that is not refused is answered without an error and performed. -/
theorem step_of_performed_write {s : State} {off : Nat} {v : Word} {rest : List Input}
    (hx : presents s (.write off .bits32 v) rest) (ha : off % 4 = 0) (hb : off < 0x1000 + s.cfg.dataBytes)
    (h : s.phase = .idle ∨ writeRefusedWhenBusy (regAt off) = false) :
    step s = storeReg (regAt off) v { s with inputs := rest, resp := some ⟨none, false⟩ } := by
  rw [step_of_write hx ha hb, writeReg, refused_eq_false (s := { s with inputs := rest }) h]
  rfl

/-! ### What the register page reads -/

/-- Settles O35: the value answered is the register's own, and each clause names the register at its offset. -/
theorem registerPageReads : Obligations.RegisterPageReads := by
  intro s off rest hx ha hp hready
  have hr : s.phase = .idle ∨ readRefusedWhenBusy (regAt off) = false :=
    hready.imp_right (readRefusedWhenBusy_regAt_of_not_ctrw hp)
  refine ⟨readValue (regAt off) s, step_of_performed_read hx ha (by omega) hr, ?_, ?ctrl, ?_, ?_, ?_, ?_, ?_, ?_, ?_,
    ?_, ?_, ?_, ?_, ?_, readValue_regAt_eq_zero s ha hp⟩
  case ctrl =>
    rintro rfl
    exact ctrlWord_eq s
  all_goals
    rintro rfl
    rfl

/-! ### STATUS -/

theorem errNumber_le (e : ErrCode) : errNumber e ≤ 4 := by
  cases e <;> decide

/-- The digits of STATUS: each flag in its bit, ERR in bits 11:8, and 0 in bits 7:4 and 31:12 (10_state.md R48 to
R53). No digit carries into the next. -/
theorem statusWord_digits (s : State) :
    (statusWord s).toNat % 2 = (busy s).toNat ∧ (statusWord s).toNat / 2 % 2 = s.done.toNat ∧
    (statusWord s).toNat / 4 % 2 = s.schedValid.toNat ∧ (statusWord s).toNat / 8 % 2 = s.accerr.toNat ∧
    (statusWord s).toNat / 16 % 16 = 0 ∧ (statusWord s).toNat / 256 % 16 = errNumber s.err ∧
    (statusWord s).toNat / 4096 % 1048576 = 0 := by
  have h0 := (busy s).toNat_le
  have h1 := s.done.toNat_le
  have h2 := s.schedValid.toNat_le
  have h3 := s.accerr.toNat_le
  have he := errNumber_le s.err
  rw [statusWord, BitVec.toNat_ofNat]
  omega

theorem getLsbD_eq_of_digit {w : Word} {i : Nat} {b : Bool} (h : w.toNat / 2 ^ i % 2 = b.toNat) :
    w.getLsbD i = b := by
  rw [← BitVec.testBit_toNat, Nat.testBit_eq_decide_div_mod_eq, h]
  cases b <;> rfl

theorem extractLsb'_toNat_eq_digit (w : Word) (i n : Nat) :
    (w.extractLsb' i n).toNat = w.toNat / 2 ^ i % 2 ^ n := by
  rw [BitVec.extractLsb'_toNat, Nat.shiftRight_eq_div_pow]

/-- Settles O36: the digits of STATUS, read as bits. -/
theorem statusWordLayout : Obligations.StatusWordLayout := by
  intro s
  obtain ⟨hbusy, hdone, hsched, haccerr, -, herr, -⟩ := statusWord_digits s
  have hbit0 : (statusWord s).getLsbD 0 = busy s := getLsbD_eq_of_digit (by simpa using hbusy)
  refine ⟨by rw [hbit0, busy_iff], getLsbD_eq_of_digit hdone, getLsbD_eq_of_digit hsched,
    getLsbD_eq_of_digit haccerr, ?_⟩
  rw [extractLsb'_toNat_eq_digit]
  exact herr.trans (by cases s.err <;> rfl)

theorem statusWord_reserved (s : State) :
    (statusWord s).extractLsb' 4 4 = 0 ∧ (statusWord s).extractLsb' 12 20 = 0 := by
  obtain ⟨-, -, -, -, hlow, -, hhigh⟩ := statusWord_digits s
  constructor
  · apply BitVec.eq_of_toNat_eq
    rw [extractLsb'_toNat_eq_digit]
    exact hlow
  · apply BitVec.eq_of_toNat_eq
    rw [extractLsb'_toNat_eq_digit]
    exact hhigh

/-- W1C: a stored bit stays unless the written one is set (10_state.md R49, R51). -/
theorem writeStatus_eq (v : Word) (s : State) :
    writeStatus v s = { s with
      done := if v.getLsbD 1 then false else s.done
      accerr := if v.getLsbD 3 then false else s.accerr } := by
  unfold writeStatus
  cases v.getLsbD 1 <;> cases v.getLsbD 3 <;> simp

/-- Settles O37: neither access of STATUS is ever refused, so each is the read of `statusWord` or `writeStatus`. -/
theorem statusWriteClearsWhereOne : Obligations.StatusWriteClearsWhereOne := by
  intro s rest
  constructor
  · intro hx
    exact ⟨statusWord s, step_of_performed_read hx rfl (by omega) (.inr rfl), statusWord_reserved s⟩
  · intro v hx
    rw [step_of_performed_write hx rfl (by omega) (.inr rfl)]
    exact congrArg Host.Outcome.next (writeStatus_eq v _)

/-! ### What a write to the register page does -/

/-- ID, CTRW and the reserved offsets are never refused, and a write to them stores nothing (10_state.md R42, R43,
R61). -/
theorem storeReg_of_ignored {off : Nat} (ha : off % 4 = 0) (hp : off < 0x1000)
    (h : off = 0x000 ∨ off = 0x01C ∨ 0x040 ≤ off) :
    writeRefusedWhenBusy (regAt off) = false ∧ ∀ v s, storeReg (regAt off) v s = .next s := by
  rcases h with rfl | rfl | h
  · exact ⟨rfl, fun _ _ => rfl⟩
  · exact ⟨rfl, fun _ _ => rfl⟩
  · by_cases hw : off < 0x050
    · obtain ⟨j, rfl⟩ := exists_quad_offset rfl ha h hw
      rw [regAt_ctrw]
      exact ⟨rfl, fun _ _ => rfl⟩
    · rw [regAt_of_ge_0x050 (by omega) hp]
      exact ⟨rfl, fun _ _ => rfl⟩

/-- Settles O38: a write that is not refused is the store of the register at its offset. -/
theorem registerPageWrites : Obligations.RegisterPageWrites := by
  intro s off v rest hx ha hp
  constructor
  · intro hidle
    have hstep := step_of_performed_write hx ha (by omega) (.inl hidle)
    refine ⟨?src, ?dst, ?len, ?key, ?ctr⟩
    case src | dst | len =>
      rintro rfl
      exact hstep
    case key =>
      rintro j rfl
      refine ⟨quadSet s.key v j, by simp [quadGet_quadSet], fun i hi => by simp [quadGet_quadSet, hi], ?_⟩
      rw [hstep, regAt_key]
      rfl
    case ctr =>
      rintro j rfl
      refine ⟨quadSet s.ctr v j, by simp [quadGet_quadSet], fun i hi => by simp [quadGet_quadSet, hi], ?_⟩
      rw [hstep, regAt_ctr]
      rfl
  · intro hignored
    obtain ⟨hnever, hstore⟩ := storeReg_of_ignored ha hp hignored
    rw [step_of_performed_write hx ha (by omega) (.inr hnever), hstore]

/-- Settles O40: without SRST a CTRL write is the store of IE alone (10_state.md R45, R46). -/
theorem ctrlWriteStoresIe : Obligations.CtrlWriteStoresIe := by
  intro s v rest hx hsrst
  rw [step_of_performed_write hx rfl (by omega) (.inr rfl)]
  show Host.Outcome.next (writeCtrl v _) = _
  rw [writeCtrl, hsrst]
  rfl

end Sys2Proof.Machine
end

section
/-! PROOFS. What writes RK and SCHED_VALID (10_state.md R63, R64): operation by operation, the two are kept, derived
from KEY, or reset. -/

namespace Sys2Proof.Machine

/-- RK and SCHED_VALID are as before. -/
def SameSchedule (s t : State) : Prop := t.rk = s.rk ∧ t.schedValid = s.schedValid

/-- A command's effect keeps both, or derives the schedule from KEY (40_primitive.md R150, 41_modes.md R175). -/
theorem commandEffect_schedule (i : Instr) (s : State) :
    SameSchedule s (commandEffect i s) ∨
      (commandEffect i s).rk = deriveSchedule (bytesLe s.key) ∧ (commandEffect i s).schedValid = true := by
  cases i with
  | encBlock | decBlock =>
    left
    simp [SameSchedule, commandEffect]
  | keysched | ecbEnc | ecbDec | ctrEnc | ctrDec =>
    right
    simp [commandEffect, ecbEncEffect, ecbDecEffect, ctrEffect, keyBytes]

theorem startCommand_sameSchedule (i : Instr) (s : State) : SameSchedule s (startCommand i s) := by
  rcases startCommand_cases i s with ⟨_, h⟩ | ⟨code, _, h⟩
  · rw [h]
    exact ⟨rfl, rfl⟩
  · rw [h]
    exact ⟨rfl, rfl⟩

/-- Only while it runs can a command derive a schedule. -/
theorem exec_schedule {i : Instr} {s t : State} (h : exec i s = .next t) :
    SameSchedule s t ∨ s.phase = .running i ∧ t.rk = deriveSchedule (bytesLe s.key) ∧ t.schedValid = true := by
  rcases exec_next_cases h with ⟨_, rfl⟩ | ⟨hp, _, rfl⟩ | ⟨_, _, _, rfl⟩
  · exact .inl (startCommand_sameSchedule i s)
  · simpa [SameSchedule, hp] using commandEffect_schedule i s
  · exact .inl ⟨rfl, rfl⟩

theorem writeCmd_sameSchedule {w : Word} {s t : State} (hp : s.phase = .idle) (h : writeCmd w s = .next t) :
    SameSchedule s t := by
  rcases writeCmd_idle (w := w) hp with ⟨i, _, hw⟩ | ⟨e, _, hw⟩
  · cases h.symm.trans hw
    exact startCommand_sameSchedule i s
  · cases h.symm.trans hw
    exact ⟨rfl, rfl⟩

/-- Of the writes only one to CTRL with SRST writes RK or SCHED_VALID (10_state.md R46). A CMD write is refused while
busy, so it never completes a command. -/
theorem writeReg_schedule {r : Reg} {v : Word} {s t : State} (h : writeReg r v s = .next t) :
    SameSchedule s t ∨ r = .ctrl ∧ v.getLsbD 1 = true ∧ t.schedValid = false ∧ t.phase = .idle := by
  unfold writeReg at h
  split at h
  · cases h
    exact .inl ⟨rfl, rfl⟩
  · rename_i hr
    cases r with
    | ctrl =>
      cases h
      by_cases hv : v.getLsbD 1 = true
      · rw [writeCtrl, if_pos hv]
        exact .inr ⟨rfl, hv, rfl, rfl⟩
      · rw [writeCtrl, if_neg hv]
        exact .inl ⟨rfl, rfl⟩
    | cmd =>
      have hidle : s.phase = .idle := by
        cases hp : s.phase with
        | idle => rfl
        | running op => simp [busy, hp, writeRefusedWhenBusy] at hr
      exact .inl (writeCmd_sameSchedule (s := respond none false s) hidle h)
    | id | status | src | dst | len | key | ctr | ctrw | reserved | data =>
      cases h
      exact .inl ⟨rfl, rfl⟩

theorem readReg_sameSchedule (r : Reg) (s : State) : SameSchedule s (readReg r s) := by
  unfold readReg
  split
  · exact ⟨rfl, rfl⟩
  · exact ⟨rfl, rfl⟩

theorem respondInReset_sameSchedule (x : Txn) (s : State) : SameSchedule s (respondInReset x s) := by
  cases x with
  | read off size => exact ⟨rfl, rfl⟩
  | write off size v => exact ⟨rfl, rfl⟩

/-- Of the transactions only a soft reset, out of reset, writes RK or SCHED_VALID. -/
theorem transact_schedule {x : Txn} {s t : State} (h : transact x s = .next t) :
    SameSchedule s t ∨ s.rstN = true ∧ isSoftReset x = true ∧ t.schedValid = false ∧ t.phase = .idle := by
  rcases transact_next_cases h with
    ⟨_, rfl⟩ | ⟨_, _, rfl⟩ | ⟨_, _, off, _, _, rfl⟩ | ⟨hr, hwf, off, size, v, rfl, hw⟩
  · exact .inl (respondInReset_sameSchedule x s)
  · exact .inl ⟨rfl, rfl⟩
  · exact .inl (readReg_sameSchedule (regAt off) s)
  · refine (writeReg_schedule hw).imp_right fun ⟨hctrl, hv, hreset⟩ => ⟨hr, ?_, hreset⟩
    obtain ⟨hsize, ha, _⟩ := (Txn.wf_iff _ _).1 hwf
    have hsize : size = .bits32 := hsize
    have hoff : off = 0x004 := regAt_eq_ctrl ha hctrl
    simp [isSoftReset, hsize, hoff, hv]

/-- Settles O50, by the input the step takes. -/
theorem onlyDerivationOrResetWritesRk : Obligations.OnlyDerivationOrResetWritesRk := by
  intro s t h hne
  have hne : ¬ SameSchedule s t := not_and_or.2 hne
  rcases step_next_cases h with
    ⟨rfl, _⟩ | ⟨op, hr, _, hhead, hexec⟩ | ⟨hhead, rfl⟩ | ⟨_, rfl⟩ | ⟨x, hhead, hbus⟩
  · exact absurd ⟨rfl, rfl⟩ hne
  · obtain ⟨_, hrk, hvalid⟩ := (exec_schedule hexec).resolve_left hne
    exact .inl ⟨hrk, hvalid, _, engineNext_of_head hr hhead⟩
  · exact .inr ⟨rfl, rfl, .inl hhead⟩
  · exact absurd ⟨rfl, rfl⟩ hne
  · obtain ⟨hr, hsoft, hvalid, hidle⟩ := (transact_schedule hbus).resolve_left hne
    exact .inr ⟨hvalid, hidle, .inr ⟨x, _, presents_of_head hr hhead, hsoft⟩⟩

end Sys2Proof.Machine
end

section
/-! PROOFS. The block right after reset (10_state.md R68). -/

namespace Sys2Proof.Machine

/-- The default parameters are legal, in whatever slot the platform puts the block (00_scope.md R9, log 2). -/
theorem configDefault_wf : Config.default.wf = true := by
  simp [Config.wf, Config.default, Config.windowBytes]

/-- Settles O42: each register's reset value is its entry in `State.reset`. -/
theorem resetStateHasTheResetValues : Obligations.ResetStateHasTheResetValues :=
  ⟨rfl, rfl, rfl, rfl, rfl, rfl, rfl, rfl, rfl, rfl, rfl, rfl, rfl, rfl, rfl⟩

/-- Settles O45: the parameters are legal, no byte of DATA is listed, and every other clause is about a command, an
error or a reset that does not stand. -/
theorem resetStateIsSound : Obligations.ResetStateIsSound where
  cfgLegal := configDefault_wf
  dataCanonical := ⟨List.Pairwise.nil, fun _ h => absurd h List.not_mem_nil⟩
  runningChecked := fun _ h => nomatch h
  noSchedErr := fun h => nomatch h
  held := fun h => nomatch h

end Sys2Proof.Machine
end

section
/-! PROOFS. Every transaction is answered: a bus error for each of the three causes of 20_memory.md R82, and no error
otherwise. -/

namespace Sys2Proof.Machine

/-- A transaction that breaks a rule of 20_memory.md R82 only gets the error response. -/
theorem step_of_bus_error {s : State} {x : Txn} {rest : List Input} (hx : presents s x rest)
    (hw : x.wf s.cfg = false) : step s = .next (busError { s with inputs := rest }) := by
  rw [step_of_presents hx]
  simp [transact, hx.1, hw]

theorem readReg_resp (r : Reg) (s : State) : ∃ data, (readReg r s).resp = some ⟨data, false⟩ := by
  unfold readReg
  split
  · exact ⟨some 0, rfl⟩
  · exact ⟨some (readValue r s), rfl⟩

theorem startCommand_resp (i : Instr) (s : State) : (startCommand i s).resp = s.resp := by
  rcases startCommand_cases i s with ⟨_, h⟩ | ⟨code, _, h⟩
  · rw [h, acceptCommand_resp]
  · rw [h, commandError_resp]

/-- The response of a CTRL write stays even when the write resets the block (log 13). -/
theorem writeCtrl_resp (v : Word) (s : State) : (writeCtrl v s).resp = s.resp := by
  unfold writeCtrl
  split
  · simp [softReset]
  · simp

theorem writeCmd_answers (w : Word) {s : State} (hp : s.phase = .idle) :
    ∃ t, writeCmd w s = .next t ∧ t.resp = s.resp := by
  rcases writeCmd_idle (w := w) hp with ⟨i, _, h⟩ | ⟨_, _, h⟩
  · exact ⟨_, h, startCommand_resp i s⟩
  · exact ⟨_, h, commandError_resp _ s⟩

/-- An access is performed only while idle or to a register that is never refused (20_memory.md R92). -/
theorem performed_of_not_refused {s : State} {refusedWhenBusy : Bool} (h : ¬(busy s && refusedWhenBusy) = true) :
    s.phase = .idle ∨ refusedWhenBusy = false := by
  cases hp : s.phase with
  | idle => exact .inl rfl
  | running op => exact .inr (by simpa [busy, hp] using h)

/-- A write always answers a next state: the one that could stop, a completion by a CMD write, is refused. -/
theorem writeReg_answers (r : Reg) (v : Word) (s : State) :
    ∃ t, writeReg r v s = .next t ∧ t.resp = some ⟨none, false⟩ := by
  unfold writeReg
  split
  · exact ⟨_, rfl, rfl⟩
  · rename_i hr
    cases r with
    | cmd =>
      have hidle : s.phase = .idle := (performed_of_not_refused hr).resolve_right nofun
      exact writeCmd_answers v (s := respond none false s) hidle
    | ctrl => exact ⟨_, rfl, writeCtrl_resp v _⟩
    | id | status | src | dst | len | key | ctr | ctrw | reserved | data => exact ⟨_, rfl, rfl⟩

/-- Settles O33: a transaction is answered an error exactly when it is not `Txn.wf`. -/
theorem busErrorChangesNothing : Obligations.BusErrorChangesNothing := by
  intro s x rest hx
  constructor
  · intro hcause
    have hw : ¬ x.wf s.cfg = true := by
      rw [Txn.wf_iff, Config.windowBytes]
      rintro ⟨hsize, ha, hb⟩
      rcases hcause with h | h | h
      · exact h hsize
      · exact h ha
      · omega
    exact step_of_bus_error hx (Bool.eq_false_of_not_eq_true hw)
  · intro hsize ha hb
    cases x with
    | read off size =>
      obtain rfl : size = .bits32 := hsize
      obtain ⟨data, hresp⟩ := readReg_resp (regAt off) { s with inputs := rest }
      exact ⟨_, data, step_of_read hx ha hb, hresp⟩
    | write off size v =>
      obtain rfl : size = .bits32 := hsize
      obtain ⟨t, ht, hresp⟩ := writeReg_answers (regAt off) v { s with inputs := rest }
      exact ⟨t, none, (step_of_write hx ha hb).trans ht, hresp⟩

end Sys2Proof.Machine
end

section
/-! PROOFS. The accesses a busy block refuses (20_memory.md R92), and the DATA window (R86). -/

namespace Sys2Proof.Machine

/-- The DATA window starts where the register page ends (10_state.md R40). -/
theorem regAt_of_ge_0x1000 {off : Nat} (h : 0x1000 ≤ off) : regAt off = .data (off - 0x1000) := by
  rw [regAt, if_neg (by omega)]

theorem regAt_data (m : Nat) : regAt (0x1000 + m) = .data m := by
  rw [regAt_of_ge_0x1000 (by omega), Nat.add_sub_cancel_left]

/-! ### Refused accesses -/

theorem readRefusedWhenBusy_regAt {off : Nat} (ha : off % 4 = 0)
    (h : 0x040 ≤ off ∧ off < 0x050 ∨ 0x1000 ≤ off) : readRefusedWhenBusy (regAt off) = true := by
  rcases h with ⟨h1, h2⟩ | h
  · obtain ⟨j, rfl⟩ := exists_quad_offset rfl ha h1 h2
    rw [regAt_ctrw]
    rfl
  · rw [regAt_of_ge_0x1000 h]
    rfl

/-- CMD, SRC, DST and LEN stand one after the other (10_state.md R40), and each is refused. -/
theorem writeRefusedWhenBusy_regAt_command (j : Fin 4) :
    writeRefusedWhenBusy (regAt (0x00C + 4 * j.val)) = true := by
  revert j
  decide

theorem writeRefusedWhenBusy_regAt {off : Nat} (ha : off % 4 = 0)
    (h : 0x00C ≤ off ∧ off < 0x01C ∨ 0x020 ≤ off ∧ off < 0x040 ∨ 0x1000 ≤ off) :
    writeRefusedWhenBusy (regAt off) = true := by
  rcases h with ⟨h1, h2⟩ | ⟨h1, h2⟩ | h
  · obtain ⟨j, rfl⟩ := exists_quad_offset rfl ha h1 h2
    exact writeRefusedWhenBusy_regAt_command j
  · by_cases hkey : off < 0x030
    · obtain ⟨j, rfl⟩ := exists_quad_offset rfl ha h1 hkey
      rw [regAt_key]
      rfl
    · obtain ⟨j, rfl⟩ := exists_quad_offset (base := 0x030) rfl ha (by omega) h2
      rw [regAt_ctr]
      rfl
  · rw [regAt_of_ge_0x1000 h]
    rfl

/-- Settles O34: each offset names a register that is refused while busy. -/
theorem busyAccessIsRefused : Obligations.BusyAccessIsRefused := by
  intro s op off rest hp ha hb
  have hbusy : busy { s with inputs := rest } = true := (busy_iff _).2 ⟨op, hp⟩
  constructor
  · intro hx h
    rw [step_of_read hx ha hb, readReg, hbusy, readRefusedWhenBusy_regAt ha h]
    rfl
  · intro v hx h
    rw [step_of_write hx ha hb, writeReg, hbusy, writeRefusedWhenBusy_regAt ha h]
    rfl

/-! ### The DATA window -/

/-- A host write sets the four bytes of its word, byte `i` to `v[8i+7:8i]` (20_memory.md R86). -/
theorem Memory.readByte_writeWord (d : Memory) (m : Nat) (v : Word) {i : Nat} (hi : i < 4) :
    (d.writeWord m v).readByte (m + i) = byteOf v i := by
  rw [Memory.writeWord, Memory.readByte_writeList, if_pos ⟨by omega, by simpa using hi⟩, Nat.add_sub_cancel_left]
  interval_cases i <;> rfl

theorem sameOutside_writeWord (d : Memory) (m : Nat) (v : Word) : sameOutside m 4 d (d.writeWord m v) := by
  intro x hx
  rw [Memory.writeWord, Memory.readByte_writeList, if_neg (by simp only [List.length_cons, List.length_nil]; omega)]

/-- Settles O39: while idle an access of the window is the read or the write of the DATA word. -/
theorem dataWindowIsLittleEndian : Obligations.DataWindowIsLittleEndian := by
  intro s m rest hidle hm
  have ha : (0x1000 + 4 * m) % 4 = 0 := by omega
  have hb : 0x1000 + 4 * m < 0x1000 + s.cfg.dataBytes := by omega
  constructor
  · intro hx
    rw [step_of_performed_read hx ha hb (.inl hidle), regAt_data]
    rfl
  · intro v hx
    refine ⟨s.data.writeWord (4 * m) v, ?_, fun i hi => s.data.readByte_writeWord (4 * m) v hi,
      sameOutside_writeWord s.data (4 * m) v⟩
    rw [step_of_performed_write hx ha hb (.inl hidle), regAt_data]
    rfl

end Sys2Proof.Machine
end

section
/-! PROOFS. What a transaction can still change while a command runs (20_memory.md R92, R93): never what the command
reads or writes, so the completion is the same wherever it falls. -/

namespace Sys2Proof.Machine

/-- The part of the state that the host can still change while a command runs, short of a reset: CTRL.IE, the two W1C
bits of STATUS, the response, and the inputs taken off the list. -/
structure HostSide where
  ie : Bool
  done : Bool
  accerr : Bool
  resp : Option Response
  inputs : List Input

/-- The host's part of a state. -/
def State.host (s : State) : HostSide := ⟨s.ie, s.done, s.accerr, s.resp, s.inputs⟩

/-- The same command over the host's part `p`. -/
def State.withHost (s : State) (p : HostSide) : State :=
  { s with ie := p.ie, done := p.done, accerr := p.accerr, resp := p.resp, inputs := p.inputs }

theorem State.withHost_host (s : State) : s.withHost s.host = s := rfl

/-! ### CTRL writes -/

/-- With SRST = 1 the write is the soft reset (10_state.md R46). -/
theorem storeReg_ctrl_of_srst {v : Word} (h : v.getLsbD 1 = true) (s : State) :
    storeReg .ctrl v s = .next (softReset (writeIe v s)) := congrArg _ (if_pos h)

/-- With SRST = 0 the write stores IE alone (10_state.md R45). -/
theorem storeReg_ctrl_of_not_srst {v : Word} (h : v.getLsbD 1 = false) (s : State) :
    storeReg .ctrl v s = .next (writeIe v s) := congrArg _ (if_neg (Bool.eq_false_iff.1 h))

/-! ### A transaction while a command runs -/

/-- A read writes the response and ACCERR at most. -/
theorem readReg_eq_withHost (r : Reg) (s : State) : ∃ p, p.inputs = s.inputs ∧ readReg r s = s.withHost p := by
  unfold readReg
  split
  · exact ⟨{ s.host with accerr := true, resp := some ⟨some 0, false⟩ }, rfl, rfl⟩
  · exact ⟨{ s.host with resp := some ⟨some (readValue r s), false⟩ }, rfl, rfl⟩

/-- A write while busy is refused, ignored, or a write of STATUS or CTRL (20_memory.md R92). -/
theorem writeReg_of_running {s : State} {op : Instr} {r : Reg} {v : Word} (hp : s.phase = .running op)
    (hsrst : r = .ctrl → v.getLsbD 1 = false) :
    ∃ p, p.inputs = s.inputs ∧ writeReg r v s = .next (s.withHost p) := by
  unfold writeReg
  split
  · exact ⟨{ s.host with accerr := true, resp := some ⟨none, false⟩ }, rfl, rfl⟩
  · rename_i hr
    have hnever : writeRefusedWhenBusy r = false :=
      (performed_of_not_refused hr).resolve_left (by rw [hp]; exact nofun)
    cases r with
    | ctrl =>
      exact ⟨{ s.host with ie := v.getLsbD 0, resp := some ⟨none, false⟩ }, rfl,
        storeReg_ctrl_of_not_srst (hsrst rfl) (respond none false s)⟩
    | status =>
      exact ⟨{ s.host with
        done := s.done && !v.getLsbD 1, accerr := s.accerr && !v.getLsbD 3, resp := some ⟨none, false⟩ }, rfl, rfl⟩
    | id | ctrw | reserved => exact ⟨{ s.host with resp := some ⟨none, false⟩ }, rfl, rfl⟩
    | cmd | src | dst | len | key | ctr | data => cases hnever

/-- A write to CTRL that is no soft reset has SRST 0 (10_state.md R46). -/
theorem srst_of_not_softReset {off : Nat} {v : Word} (ha : off % 4 = 0)
    (h : isSoftReset (.write off .bits32 v) = false) (hctrl : regAt off = .ctrl) : v.getLsbD 1 = false := by
  obtain rfl := regAt_eq_ctrl ha hctrl
  exact h

/-- While a command runs, any transaction but a soft reset is answered and touches the host's part alone. -/
theorem step_of_running {s : State} {op : Instr} {x : Txn} {rest : List Input} (hp : s.phase = .running op)
    (hx : presents s x rest) (hsoft : isSoftReset x = false) :
    ∃ p, p.inputs = rest ∧ step s = .next (s.withHost p) := by
  cases hw : x.wf s.cfg with
  | false =>
    exact ⟨{ s.host with resp := some ⟨some 0, true⟩, inputs := rest }, rfl, step_of_bus_error hx hw⟩
  | true =>
    obtain ⟨hsize, ha, hb⟩ := (Txn.wf_iff _ _).1 hw
    cases x with
    | read off size =>
      obtain rfl : size = .bits32 := hsize
      obtain ⟨p, hin, hread⟩ := readReg_eq_withHost (regAt off) { s with inputs := rest }
      exact ⟨p, hin, (step_of_read hx ha hb).trans (congrArg _ hread)⟩
    | write off size v =>
      obtain rfl : size = .bits32 := hsize
      obtain ⟨p, hin, hwrite⟩ :=
        writeReg_of_running (s := { s with inputs := rest }) hp (srst_of_not_softReset ha hsoft)
      exact ⟨p, hin, (step_of_write hx ha hb).trans hwrite⟩

/-- Settles O51: nothing the command uses is in the host's part. -/
theorem busyFreezesWhatTheCommandUses : Obligations.BusyFreezesWhatTheCommandUses := by
  intro s op x rest hp hx hsoft
  obtain ⟨p, hin, hstep⟩ := step_of_running hp hx hsoft
  exact ⟨s.withHost p, hstep, hin, rfl, hx.1, rfl, rfl, rfl, rfl, rfl, rfl, rfl, rfl, rfl, rfl⟩

/-! ### What ends BUSY -/

theorem respondInReset_phase (x : Txn) (s : State) : (respondInReset x s).phase = s.phase := by
  cases x with
  | read off size => rfl
  | write off size v => rfl

/-- A running command that takes its step completes. -/
theorem exec_running_next {op : Instr} {s t : State} (hp : s.phase = .running op) (h : exec op s = .next t) :
    rangeFails op s = false ∧ t = finishCommand (commandEffect op s) := by
  rcases exec_next_cases h with ⟨hidle, _⟩ | ⟨_, hr, ht⟩ | ⟨j, hj, hne, _⟩
  · cases hp.symm.trans hidle
  · exact ⟨hr, ht⟩
  · cases hp.symm.trans hj
    exact absurd rfl hne

/-- A CTRL write with SRST = 1 is the soft reset, idle or busy (10_state.md R46). -/
theorem step_of_softReset {s : State} {x : Txn} {rest : List Input} (hx : presents s x rest)
    (h : isSoftReset x = true) :
    ∃ v, step s = .next (softReset (writeIe v { s with inputs := rest, resp := some ⟨none, false⟩ })) := by
  cases x with
  | read off size => cases h
  | write off size v =>
    simp only [isSoftReset, Bool.and_eq_true, beq_iff_eq] at h
    obtain ⟨⟨rfl, rfl⟩, hv⟩ := h
    exact ⟨v, (step_of_performed_write hx rfl (by omega) (.inr rfl)).trans (storeReg_ctrl_of_srst hv _)⟩

/-- A transaction that ends a running command is a soft reset, out of reset. -/
theorem softReset_of_step_ends_busy {s t : State} {op : Instr} {x : Txn} (hp : s.phase = .running op)
    (hhead : s.inputs.head? = some (.bus x)) (hbus : transact x s.taken = .next t) (h : step s = .next t)
    (hne : t.phase ≠ .running op) : t.phase = .idle ∧ ∃ rest, presents s x rest ∧ isSoftReset x = true := by
  cases hr : s.rstN with
  | false =>
    rw [transact_of_held (s := s.taken) hr hbus, respondInReset_phase] at hne
    exact absurd hp hne
  | true =>
    have hx := presents_of_head hr hhead
    cases hsoft : isSoftReset x with
    | false =>
      obtain ⟨p, _, hstep⟩ := step_of_running hp hx hsoft
      cases h.symm.trans hstep
      exact absurd hp hne
    | true =>
      obtain ⟨v, hstep⟩ := step_of_softReset hx hsoft
      cases h.symm.trans hstep
      exact ⟨rfl, _, hx, rfl⟩

/-- Settles O48, by the input the step takes. -/
theorem onlyCompletionOrResetEndsBusy : Obligations.OnlyCompletionOrResetEndsBusy := by
  intro s t op hp h hne
  rcases step_next_cases h with
    ⟨rfl, _⟩ | ⟨j, hr, hj, hhead, hexec⟩ | ⟨hhead, rfl⟩ | ⟨_, rfl⟩ | ⟨x, hhead, hbus⟩
  · exact absurd hp hne
  · obtain ⟨_, rfl⟩ := exec_running_next (s := s.taken) hj hexec
    exact ⟨rfl, .inl ⟨_, engineNext_of_head hr hhead⟩⟩
  · exact ⟨rfl, .inr (.inl hhead)⟩
  · exact absurd hp hne
  · obtain ⟨hidle, hreset⟩ := softReset_of_step_ends_busy hp hhead hbus h hne
    exact ⟨hidle, .inr (.inr ⟨x, hreset⟩)⟩

/-! ### The latency -/

theorem rangeFails_withHost (op : Instr) (s : State) (p : HostSide) :
    rangeFails op (s.withHost p) = rangeFails op s := by
  cases op <;> rfl

/-- A command's effect neither reads nor writes the host's part. -/
theorem commandEffect_withHost (op : Instr) (s : State) (p : HostSide) :
    commandEffect op (s.withHost p) = (commandEffect op s).withHost p := by
  cases op <;> rfl

/-- The completion is the same over any host's part, where it sets DONE. -/
theorem exec_withHost {op : Instr} {s u : State} (p : HostSide) (hp : s.phase = .running op)
    (h : exec op s = .next u) : exec op (s.withHost p) = .next (u.withHost { p with done := true }) := by
  obtain ⟨hr, rfl⟩ := exec_running_next hp h
  rw [exec_of_running (s := s.withHost p) hp ((rangeFails_withHost op s p).trans hr), commandEffect_withHost]
  rfl

/-- The engine's step, where it falls on the list (70_reset_and_hazards.md R250). -/
theorem step_of_engine {s : State} {op : Instr} {rest : List Input} (hr : s.rstN = true) (hp : s.phase = .running op)
    (hi : s.inputs = .engine :: rest) : step s = exec op { s with inputs := rest } := by
  simp [step, nextStep, hi, takeInput, engineStep, hr, hp]

/-- Transactions before the engine's step leave the command running as it was (20_memory.md R93). -/
theorem run_through_transactions {s : State} {op : Instr} {xs : List Txn} {rest : List Input} (hr : s.rstN = true)
    (hp : s.phase = .running op) (hsoft : ∀ x ∈ xs, isSoftReset x = false) (hi : s.inputs = xs.map .bus ++ rest) :
    ∃ p, p.inputs = rest ∧ ∀ k, run (xs.length + k) s = run k (s.withHost p) := by
  induction xs generalizing s with
  | nil =>
    obtain rfl : s.inputs = rest := hi
    exact ⟨s.host, rfl, fun k => by rw [List.length_nil, Nat.zero_add, State.withHost_host]⟩
  | cons x xs ih =>
    obtain ⟨hx, hxs⟩ := List.forall_mem_cons.1 hsoft
    obtain ⟨q, hq, hstep⟩ := step_of_running hp ⟨hr, hi⟩ hx
    obtain ⟨p, hin, hrun⟩ := ih (s := s.withHost q) hr hp hxs hq
    refine ⟨p, hin, fun k => ?_⟩
    rw [List.length_cons, Nat.add_right_comm, run_succ, hstep]
    exact hrun k

/-- Settles O52: the transactions leave the command as it was, and the completion does not depend on the host's
part. -/
theorem latencyDoesNotChangeTheResult : Obligations.LatencyDoesNotChangeTheResult := by
  intro s u op xs rest hr hp hsoft hi hu
  obtain ⟨p, hin, hrun⟩ := run_through_transactions hr hp hsoft hi
  have hstep : step (s.withHost p) = .next (u.withHost { p with done := true, inputs := rest }) :=
    (step_of_engine (s := s.withHost p) hr hp hin).trans
      (exec_withHost (s := s) { p with inputs := rest } hp hu)
  have hidle : u.phase = .idle := by
    obtain ⟨_, rfl⟩ := exec_running_next hp hu
    rfl
  refine ⟨u.withHost { p with done := true, inputs := rest }, ?_, hidle, rfl, rfl, rfl, rfl, rfl, rfl⟩
  rw [hrun 1, run_succ, hstep]
  rfl

end Sys2Proof.Machine
end

section
/-! PROOFS. Command words and commands (30_encoding.md R110 to R112): a word decodes to a command exactly when it is
that command's own word, and the bus carries the word as its four bytes. -/

namespace Sys2Proof

/-- What holds of each command as syntax holds of every command. -/
theorem encodeDecode_statement (i : Instr) : Laws.EncodeDecode.Statement i := by
  cases i with
  | keysched => exact Laws.EncodeDecode.keysched
  | encBlock => exact Laws.EncodeDecode.encBlock
  | decBlock => exact Laws.EncodeDecode.decBlock
  | ecbEnc => exact Laws.EncodeDecode.ecbEnc
  | ecbDec => exact Laws.EncodeDecode.ecbDec
  | ctrEnc => exact Laws.EncodeDecode.ctrEnc
  | ctrDec => exact Laws.EncodeDecode.ctrDec

theorem decode_encode (i : Instr) : decode (encode i) = .ok i := by
  obtain ⟨_, _, _, hdecode, _⟩ := encodeDecode_statement i
  exact hdecode

theorem decodeTableWord_encode (i : Instr) : decodeTableWord 32 (encode i).toNat = some i := by
  obtain ⟨_, _, _, _, htable⟩ := encodeDecode_statement i
  exact htable

/-! ### Words -/

/-- A word whose reserved bits are clear is its opcode field alone (R110). -/
theorem zeroExtend_opField {w : Word} (h : rsvField w = 0) : (opField w).zeroExtend 32 = w := by
  have hw := w.isLt
  have hrsv : w.toNat / 2 ^ 4 % 2 ^ 28 = 0 := by
    rw [← Machine.extractLsb'_toNat_eq_digit]
    exact congrArg BitVec.toNat h
  have hop : (opField w).toNat = w.toNat / 2 ^ 0 % 2 ^ 4 := Machine.extractLsb'_toNat_eq_digit w 0 4
  apply BitVec.eq_of_toNat_eq
  rw [BitVec.toNat_setWidth, hop]
  omega

/-- A word that decodes has its reserved bits clear and the opcode of its command (R112). -/
theorem fields_of_decode {w : Word} {i : Instr} (h : decode w = .ok i) : rsvField w = 0 ∧ opField w = opcode i := by
  unfold decode at h
  split at h
  · rename_i hrsv
    refine ⟨hrsv, ?_⟩
    -- seven rows answer the command of the opcode they match, the last row an error
    split at h <;> cases h <;> assumption
  · cases h

/-- Each command has one word. -/
theorem decode_eq_ok_iff (w : Word) (i : Instr) : decode w = .ok i ↔ w = encode i := by
  constructor
  · intro h
    obtain ⟨hrsv, hop⟩ := fields_of_decode h
    rw [encode, ← hop, zeroExtend_opField hrsv]
  · rintro rfl
    exact decode_encode i

/-- The commands' words are 1 to 7 (R111). -/
theorem exists_eq_encode_iff (w : Word) : (∃ i, w = encode i) ↔ 1 ≤ w.toNat ∧ w.toNat ≤ 7 := by
  constructor
  · rintro ⟨i, rfl⟩
    cases i <;> decide
  · rintro ⟨h1, h7⟩
    have named : ∀ n, 1 ≤ n → n ≤ 7 → ∃ i, (encode i).toNat = n := by
      intro n h1 h7
      interval_cases n
      exacts [⟨.keysched, rfl⟩, ⟨.encBlock, rfl⟩, ⟨.decBlock, rfl⟩, ⟨.ecbEnc, rfl⟩, ⟨.ecbDec, rfl⟩, ⟨.ctrEnc, rfl⟩,
        ⟨.ctrDec, rfl⟩]
    obtain ⟨i, hi⟩ := named w.toNat h1 h7
    exact ⟨i, BitVec.eq_of_toNat_eq hi.symm⟩

/-- Settles O1: each clause is `decode_eq_ok_iff` at one command, the last one its negation at all of them. -/
theorem onlySevenWordsDecode : Obligations.OnlySevenWordsDecode := by
  intro w
  refine ⟨decode_eq_ok_iff w .keysched, decode_eq_ok_iff w .encBlock, decode_eq_ok_iff w .decBlock,
    decode_eq_ok_iff w .ecbEnc, decode_eq_ok_iff w .ecbDec, decode_eq_ok_iff w .ctrEnc, decode_eq_ok_iff w .ctrDec, ?_⟩
  simp only [← exists_eq_encode_iff, not_exists, ne_eq, decode_eq_ok_iff]

/-! ### Bytes -/

/-- The four bytes of a word, lowest address first, are that command word again (20_memory.md R84). -/
theorem decodeBytes_wordBytes (w : Word) (rest : List Byte) :
    decodeBytes (wordBytes w ++ rest) = (decode w).map (·, rest) := by
  have hword : commandWord (w.extractLsb' 0 8) (w.extractLsb' 8 8) (w.extractLsb' 16 8) (w.extractLsb' 24 8) = w :=
    Machine.le32_byteOf w
  simp only [wordBytes, List.cons_append, decodeBytes, hword]
  cases decode w with
  | ok i => rfl
  | error e => rfl

/-- Settles O2: the bytes give the word back, and the word its command. -/
theorem decodeOfEncodeIsTheCommand : Obligations.DecodeOfEncodeIsTheCommand := by
  intro i rest _
  rw [decodeBytes_wordBytes, decode_encode]
  rfl

/-- Settles O3: the table's words are those of `encode`. -/
theorem tableWordsDecode : Obligations.TableWordsDecode :=
  ⟨decodeTableWord_encode .keysched, decodeTableWord_encode .encBlock, decodeTableWord_encode .decBlock,
    decodeTableWord_encode .ecbEnc, decodeTableWord_encode .ecbDec, decodeTableWord_encode .ctrEnc,
    decodeTableWord_encode .ctrDec⟩

end Sys2Proof
end

section
/-! PROOFS. The "writes" column of 30_encoding.md R113: what a completing command leaves unchanged of RK, SCHED_VALID,
CTRW and DATA. The other registers are `commandEffect_frame`. -/

namespace Sys2Proof.Machine

/-- ENC_BLOCK and DEC_BLOCK use the stored schedule and leave it. -/
theorem commandEffect_sameSchedule_of_block {i : Instr} (h : i ∈ [Instr.encBlock, .decBlock]) (s : State) :
    SameSchedule s (commandEffect i s) := by
  simp only [List.mem_cons, List.not_mem_nil, or_false] at h
  rcases h with rfl | rfl
  · exact ⟨encBlockEffect_rk s, encBlockEffect_schedValid s⟩
  · exact ⟨decBlockEffect_rk s, decBlockEffect_schedValid s⟩

/-- Only the CTR commands write the working counter (41_modes.md R177). -/
theorem commandEffect_ctrw {i : Instr} (h : i ∈ [Instr.keysched, .encBlock, .decBlock, .ecbEnc, .ecbDec])
    (s : State) : (commandEffect i s).ctrw = s.ctrw := by
  cases i with
  | keysched | encBlock | decBlock | ecbEnc | ecbDec => simp [commandEffect, ecbEncEffect, ecbDecEffect]
  | ctrEnc | ctrDec => simp at h

/-- Bytes outside a range are outside every range it holds. -/
theorem sameOutside.mono {a m n : Nat} {d d' : Memory} (h : sameOutside a m d d') (hmn : m ≤ n) :
    sameOutside a n d d' := fun x hx => h x (by omega)

/-- ECB writes whole blocks of its length, so never past it. -/
theorem ecbData_sameOutside (f : Block → Block) (s : State) :
    sameOutside s.dst.toNat s.len.toNat s.data (ecbData f s).data := by
  rw [ecbData_data]
  exact (ecbBlocks_sameOutside f (srcOffset s) (dstOffset s) (byteLength s / 16) s.data).mono
    (Nat.mul_div_le s.len.toNat 16)

/-- A command writes DATA inside its destination range alone: the range that is checked (60_exceptions.md R203) is the
range that is written. -/
theorem commandEffect_sameOutside {i : Instr} {s : State} {n : Nat} (h : dataLength i s = some n) :
    sameOutside s.dst.toNat n s.data (commandEffect i s).data := by
  cases i with
  | keysched => cases h
  | encBlock | decBlock =>
    cases h
    exact sameOutside_write s.data (dstOffset s) _
  | ecbEnc | ecbDec =>
    cases h
    exact ecbData_sameOutside _ (storeSchedule s)
  | ctrEnc | ctrDec =>
    cases h
    exact ctrRun_sameOutside _ (srcOffset s) (dstOffset s) (byteLength s) ⟨initialCounter s, s.data⟩

theorem dataLength_of_block {i : Instr} (h : i ∈ [Instr.encBlock, .decBlock]) (s : State) :
    dataLength i s = some 16 := by
  simp only [List.mem_cons, List.not_mem_nil, or_false] at h
  rcases h with rfl | rfl
  · rfl
  · rfl

theorem dataLength_of_mode {i : Instr} (h : i ∈ [Instr.ecbEnc, .ecbDec, .ctrEnc, .ctrDec]) (s : State) :
    dataLength i s = some s.len.toNat := by
  cases i with
  | keysched | encBlock | decBlock => simp at h
  | ecbEnc | ecbDec | ctrEnc | ctrDec => rfl

/-- Settles O26: a running command that answers a next state completes, and completion adds only the phase and DONE to
its effect. -/
theorem commandWritesOnlyItsColumn : Obligations.CommandWritesOnlyItsColumn := by
  intro s t op hp h
  obtain ⟨_, rfl⟩ := exec_running_next hp h
  obtain ⟨hcfg, hie, _, haccerr, herr, hsrc, hdst, hlen, hkey, hctr, _, hrstN, hresp, hdraws, hinputs⟩ :=
    commandEffect_frame op s
  refine ⟨hcfg, hie, haccerr, herr, hsrc, hdst, hlen, hkey, hctr, hrstN, hresp, hdraws, hinputs, ?rk, ?ctrw, ?keysched,
    ?block, ?mode⟩
  case rk => exact fun hop => commandEffect_sameSchedule_of_block hop s
  case ctrw => exact fun hop => commandEffect_ctrw hop s
  case keysched =>
    rintro rfl
    exact storeSchedule_data s
  case block => exact fun hop => commandEffect_sameOutside (dataLength_of_block hop s)
  case mode => exact fun hop => commandEffect_sameOutside (dataLength_of_mode hop s)

end Sys2Proof.Machine
end

section
/-! PROOFS. The primitive (40_primitive.md): its word operators, the key schedule, the cipher and its inverse, the
four-round form, and the commands that expose it. -/

namespace Sys2Proof.Machine

/-! ### Word operators (R130 to R134) -/

@[simp] theorem sub32_add32 (a b : Word) : sub32 (add32 a b) b = a := add_sub_cancel_right a b

@[simp] theorem add32_sub32 (a b : Word) : add32 (sub32 a b) b = a := sub_add_cancel a b

@[simp] theorem sub32_add32_left (a b : Word) : sub32 (add32 a b) a = b := add_sub_cancel_left a b

@[simp] theorem add32_sub32_left (a b : Word) : add32 a (sub32 b a) = b := add_sub_cancel a b

/-- Bit `i` of a rotated word is the bit `n` places below it, counted modulo 32. -/
theorem rol32_getLsbD (x : Word) (n : Nat) {i : Nat} (hi : i < 32) :
    (rol32 x n).getLsbD i = x.getLsbD ((i + (32 - n % 32)) % 32) := by
  rw [rol32_eq_rotateLeft, BitVec.getLsbD_rotateLeft]
  by_cases h : i < n % 32
  · have hmod : (i + (32 - n % 32)) % 32 = 32 - n % 32 + i := by omega
    simp [h, hmod]
  · have hmod : (i + (32 - n % 32)) % 32 = i - n % 32 := by omega
    simp [h, hi, hmod]

theorem rol32_rol32 (x : Word) (m n : Nat) : rol32 (rol32 x m) n = rol32 x (m + n) := by
  apply BitVec.eq_of_getLsbD_eq
  intro i hi
  rw [rol32_getLsbD _ _ hi, rol32_getLsbD _ _ (Nat.mod_lt _ (by omega)), rol32_getLsbD _ _ hi]
  congr 1
  omega

theorem rol32_of_mod_eq_zero (x : Word) {n : Nat} (h : n % 32 = 0) : rol32 x n = x := by
  simp [rol32, h]

@[simp] theorem ror32_rol32 (x : Word) (n : Nat) : ror32 (rol32 x n) n = x := by
  rw [ror32, rol32_rol32]
  exact rol32_of_mod_eq_zero x (by omega)

@[simp] theorem rol32_ror32 (x : Word) (n : Nat) : rol32 (ror32 x n) n = x := by
  rw [ror32, rol32_rol32]
  exact rol32_of_mod_eq_zero x (by omega)

/-- Settles O27, from one law per operator. -/
theorem wordOperatorsInvert : Obligations.WordOperatorsInvert := fun a b m n =>
  ⟨sub32_add32 a b, add32_sub32 a b, xor_cancel_right a b, ror32_rol32 a n, rol32_ror32 a n, rol32_rol32 a m n⟩

/-! ### The key schedule (R135 to R141) -/

/-- T0..T3 after the rounds `0 .. n-1` of the schedule. -/
def keyRounds (t : Quad) : Nat → Quad
  | 0 => t
  | n + 1 => keyRound n (keyRounds t n)

theorem delta_eq (r : Nat) :
    delta r = if r % 4 = 0 then 0xc3efe9db#32 else if r % 4 = 1 then 0x44626b02#32
      else if r % 4 = 2 then 0x79e27c8a#32 else 0x78df30ec#32 := by
  have h : r % 4 = 0 ∨ r % 4 = 1 ∨ r % 4 = 2 ∨ r % 4 = 3 := by omega
  unfold delta
  rcases h with h | h | h | h <;> rw [h] <;> rfl

/-- Six words to a round: those of the `i`-th round from round `r` on are the slots of T after it. -/
theorem scheduleFrom_getElem? (t : Quad) {n i j : Nat} (r : Nat) (hi : i < n) (hj : j < 6) :
    (scheduleFrom n r (keyRounds t r))[6 * i + j]? = (roundSlots (keyRounds t (r + i + 1)))[j]? := by
  induction n generalizing r i with
  | zero => omega
  | succ n ih =>
    have hlen : (roundSlots (keyRounds t (r + 1))).length = 6 := rfl
    have hsplit : scheduleFrom (n + 1) r (keyRounds t r) =
        roundSlots (keyRounds t (r + 1)) ++ scheduleFrom n (r + 1) (keyRounds t (r + 1)) := rfl
    rw [hsplit]
    cases i with
    | zero => rw [List.getElem?_append_left (by omega), Nat.mul_zero, Nat.zero_add, Nat.add_zero]
    | succ i =>
      rw [List.getElem?_append_right (by omega), hlen, show 6 * (i + 1) + j - 6 = 6 * i + j by omega,
        ih (r + 1) (by omega), show r + 1 + i + 1 = r + (i + 1) + 1 by omega]

/-- Word `j` of round `r` in the derived schedule (R139). -/
theorem deriveSchedule_getD (k : Block) {r j : Nat} (hr : r < 24) (hj : j < 6) :
    (deriveSchedule k).getD (6 * r + j) 0 = (roundSlots (keyRounds (wordsLe k) (r + 1))).getD j 0 := by
  have hslot := scheduleFrom_getElem? (wordsLe k) 0 hr hj
  rw [Nat.zero_add] at hslot
  simp only [deriveSchedule, Vector.getD, Array.getD_eq_getD_getElem?, List.getElem?_toArray,
    List.getD_eq_getElem?_getD]
  exact congrArg (Option.getD · 0) hslot

/-- Settles O28: the T words are those of `keyRounds`. -/
theorem scheduleFollowsTheRounds : Obligations.ScheduleFollowsTheRounds := by
  intro k
  refine ⟨keyRounds (wordsLe k), rfl, fun r hr => ⟨⟨delta r, delta_eq r, rfl⟩, ?_⟩⟩
  have slot := fun j (hj : j < 6) => deriveSchedule_getD k hr hj
  exact ⟨slot 0 (by omega), slot 1 (by omega), slot 2 (by omega), slot 3 (by omega), slot 4 (by omega),
    slot 5 (by omega)⟩

/-! ### Encryption and decryption (R142 to R147) -/

/-- Each word of `dec_round` takes off the rotation, then the addition, then the key, and needs the word before it to be
right already. -/
@[simp] theorem decRound_encRound (rk : RoundKeys) (i : Nat) (x : Quad) : decRound rk i (encRound rk i x) = x := by
  have h1 : decWord1 rk i (encRound rk i x) = x.w1 := by simp [decWord1, encRound]
  have h2 : decWord2 rk i (encRound rk i x) = x.w2 := by rw [decWord2, h1]; simp [encRound]
  have h3 : decWord3 rk i (encRound rk i x) = x.w3 := by rw [decWord3, h2]; simp [encRound]
  rw [decRound, h1, h2, h3]
  rfl

/-- The key and the difference that `dec_round` takes off are the ones `enc_round` puts on again, in all three sums. -/
@[simp] theorem encRound_decRound (rk : RoundKeys) (i : Nat) (x : Quad) : encRound rk i (decRound rk i x) = x := by
  simp [encRound, decRound, decWord1, decWord2, decWord3]

theorem decRounds_encRounds (rk : RoundKeys) (n : Nat) (x : Quad) : decRounds rk n (encRounds rk n x) = x := by
  induction n with
  | zero => rfl
  | succ n ih => rw [encRounds, decRounds, decRound_encRound, ih]

theorem encRounds_decRounds (rk : RoundKeys) (n : Nat) (x : Quad) : encRounds rk n (decRounds rk n x) = x := by
  induction n generalizing x with
  | zero => rfl
  | succ n ih => rw [decRounds, encRounds, ih, encRound_decRound]

/-- Settles O29: rounds undo one another pairwise, from the innermost pair outwards. -/
theorem decryptInvertsEncrypt : Obligations.DecryptInvertsEncrypt := by
  intro rk b
  constructor
  · rw [decryptBlock, encryptBlock, wordsLe_bytesLe, decRounds_encRounds, bytesLe_wordsLe]
  · rw [decryptBlock, encryptBlock, wordsLe_bytesLe, encRounds_decRounds, bytesLe_wordsLe]

/-! ### The four-round form (R148)

A round moves each word down one place; an in-place step leaves the words where they are. So the in-place words lag one
more rotation behind the round after each step, and after four steps the rotations cancel. -/

/-- The words one place down, the first moved to the end. -/
def rotateWords (x : Quad) : Quad := ⟨x.w1, x.w2, x.w3, x.w0⟩

/-- Word `m` of round `4g + j` is word `6j + m` of group `g`. -/
theorem roundKey_eq_groupKey (rk : RoundKeys) (g j m : Nat) :
    roundKey rk (6 * (4 * g + j) + m) = groupKey rk g (6 * j + m) := by
  rw [groupKey]
  congr 1
  omega

/-- Round `4g + j` in the keys of group `g`. -/
theorem encRound_group (rk : RoundKeys) (g j : Nat) (x : Quad) :
    encRound rk (4 * g + j) x =
      ⟨rol32 (add32 (x.w0 ^^^ groupKey rk g (6 * j)) (x.w1 ^^^ groupKey rk g (6 * j + 1))) 9,
        ror32 (add32 (x.w1 ^^^ groupKey rk g (6 * j + 2)) (x.w2 ^^^ groupKey rk g (6 * j + 3))) 5,
        ror32 (add32 (x.w2 ^^^ groupKey rk g (6 * j + 4)) (x.w3 ^^^ groupKey rk g (6 * j + 5))) 3, x.w0⟩ := by
  have key0 : roundKey rk (6 * (4 * g + j)) = groupKey rk g (6 * j) := roundKey_eq_groupKey rk g j 0
  simp only [encRound, key0, roundKey_eq_groupKey]

theorem encRound_eq_groupStep0 (rk : RoundKeys) (g : Nat) (x : Quad) :
    encRound rk (4 * g) x = rotateWords (groupStep0 rk g x) := encRound_group rk g 0 x

theorem encRound_eq_groupStep1 (rk : RoundKeys) (g : Nat) (x : Quad) :
    encRound rk (4 * g + 1) (rotateWords x) = rotateWords^[2] (groupStep1 rk g x) :=
  encRound_group rk g 1 (rotateWords x)

theorem encRound_eq_groupStep2 (rk : RoundKeys) (g : Nat) (x : Quad) :
    encRound rk (4 * g + 2) (rotateWords^[2] x) = rotateWords^[3] (groupStep2 rk g x) :=
  encRound_group rk g 2 (rotateWords^[2] x)

/-- The last step of a group leaves every word in its own place. -/
theorem encRound_eq_groupStep3 (rk : RoundKeys) (g : Nat) (x : Quad) :
    encRound rk (4 * g + 3) (rotateWords^[3] x) = groupStep3 rk g x := encRound_group rk g 3 (rotateWords^[3] x)

theorem encGroups_eq_encRounds (rk : RoundKeys) (g : Nat) (x : Quad) : encGroups rk g x = encRounds rk (4 * g) x := by
  induction g with
  | zero => rfl
  | succ g ih =>
    rw [Nat.mul_succ, encRounds, encRounds, encRounds, encRounds, ← ih, encRound_eq_groupStep0,
      encRound_eq_groupStep1, encRound_eq_groupStep2, encRound_eq_groupStep3, encGroups]

/-- Settles O30: six groups are 24 rounds. -/
theorem unrolledFormIsTheCipher : Obligations.UnrolledFormIsTheCipher := by
  intro rk p
  rw [encryptBlockUnrolled, encGroups_eq_encRounds, encryptBlock]

/-! ### The commands that expose the primitive (R150 to R152) -/

/-- Settles O14: KEYSCHED touches no DATA, so its completion has no range to fail. -/
theorem keyschedCompletes : Obligations.KeyschedCompletes := fun _ hp => exec_of_running hp rfl

/-- The state a running block command completes with. -/
theorem exec_block {s : State} {op : Instr} {f : Block → Block}
    (hop : op = .encBlock ∧ f = encryptBlock s.rk ∨ op = .decBlock ∧ f = decryptBlock s.rk)
    (hp : s.phase = .running op) (hr : inRange s 16) :
    exec op s = .next (completed s s.rk s.schedValid s.ctrw (transformBlock f s.src.toNat s.dst.toNat s.data)) := by
  rcases hop with ⟨rfl, rfl⟩ | ⟨rfl, rfl⟩
  · rw [exec_of_running hp (rangeFails_of_inRange rfl hr)]
    simp only [commandEffect, encBlockEffect, finishCommand, completed, srcOffset, dstOffset]
  · rw [exec_of_running hp (rangeFails_of_inRange rfl hr)]
    simp only [commandEffect, decBlockEffect, finishCommand, completed, srcOffset, dstOffset]

theorem read_transformBlock (f : Block → Block) (src dst : Nat) (d : Memory) :
    (transformBlock f src dst d).read dst 16 = f (d.read src 16) := Memory.read_write d dst _

theorem sameOutside_transformBlock (f : Block → Block) (src dst : Nat) (d : Memory) :
    sameOutside dst 16 d (transformBlock f src dst d) := sameOutside_write d dst _

/-- Settles O15: the engine's one `MemWrite` is at DST, of the block it read at SRC before. -/
theorem encBlockCompletes : Obligations.EncBlockCompletes := fun _ hp hr =>
  ⟨_, exec_block (.inl ⟨rfl, rfl⟩) hp hr, read_transformBlock _ _ _ _, sameOutside_transformBlock _ _ _ _⟩

/-- Settles O16, as O15 with the other transform. -/
theorem decBlockCompletes : Obligations.DecBlockCompletes := fun _ hp hr =>
  ⟨_, exec_block (.inr ⟨rfl, rfl⟩) hp hr, read_transformBlock _ _ _ _, sameOutside_transformBlock _ _ _ _⟩

end Sys2Proof.Machine
end

section
/-! PROOFS. The modes (41_modes.md): the counter as an integer, ECB block by block, CTR chunk by chunk, what each means
for the bytes when no source byte is overwritten before it is read, and the round trips. -/

namespace Sys2Proof.Machine

/-! ### The counter (R170, R171) -/

theorem bePrefix_congr {c d : Block} {i : Nat} (h : ∀ j, j ≤ i → c.getD j 0 = d.getD j 0) :
    bePrefix c i = bePrefix d i := by
  induction i with
  | zero => rw [bePrefix, bePrefix, h 0 (Nat.le_refl 0)]
  | succ i ih => rw [bePrefix, bePrefix, h (i + 1) (Nat.le_refl _), ih fun j hj => h j (by omega)]

/-- The loop from byte `i` toward byte 0 leaves the bytes behind it. -/
theorem incCtrFrom_getD_of_lt {i j : Nat} (c : Block) (hi : i < 16) (hij : i < j) :
    (incCtrFrom i c).getD j 0 = c.getD j 0 := by
  induction i generalizing c with
  | zero => rw [incCtrFrom, getD_setIfInBounds _ _ _ _ hi, if_neg (by omega)]
  | succ i ih =>
    rw [incCtrFrom]
    split
    · rw [ih _ (by omega) (by omega), getD_setIfInBounds _ _ _ _ hi, if_neg (by omega)]
    · rw [getD_setIfInBounds _ _ _ _ hi, if_neg (by omega)]

/-- A byte replaced behind the first bytes is not one of them. -/
theorem bePrefix_setIfInBounds_of_lt {i j : Nat} (c : Block) (v : Byte) (hj : j < 16) (hij : i < j) :
    bePrefix (c.setIfInBounds j v) i = bePrefix c i :=
  bePrefix_congr fun k hk => by rw [getD_setIfInBounds _ _ _ _ hj, if_neg (by omega)]

/-- The loop from byte `i` adds one to the integer of the bytes `0 .. i`: without a carry in the last digit alone, with
one in the digits before it. -/
theorem bePrefix_incCtrFrom (c : Block) {i : Nat} (hi : i < 16) :
    bePrefix (incCtrFrom i c) i = (bePrefix c i + 1) % 256 ^ (i + 1) := by
  induction i generalizing c with
  | zero =>
    rw [incCtrFrom, bePrefix, bePrefix, getD_setIfInBounds _ _ _ _ hi, if_pos rfl, BitVec.toNat_add]
    rfl
  | succ i ih =>
    have hpow : 256 ^ (i + 1 + 1) = 256 * 256 ^ (i + 1) := by rw [pow_succ, Nat.mul_comm]
    have hlt := bePrefix_lt c i
    have hbyte := (c.getD (i + 1) 0).isLt
    have hadd : (c.getD (i + 1) 0 + 1).toNat = ((c.getD (i + 1) 0).toNat + 1) % 256 := BitVec.toNat_add _ _
    rw [incCtrFrom]
    split
    next hcarry =>
      rw [hcarry] at hadd
      have hmax : (c.getD (i + 1) 0).toNat = 255 := by
        have : (0 : Byte).toNat = 0 := rfl
        omega
      rw [bePrefix, ih _ (by omega), incCtrFrom_getD_of_lt _ (by omega) (by omega),
        bePrefix_setIfInBounds_of_lt _ _ hi (by omega), getD_setIfInBounds _ _ _ _ hi, if_pos rfl, bePrefix, hmax, hpow,
        ← Nat.mul_mod_mul_left]
      rfl
    next hcarry =>
      have hmax : (c.getD (i + 1) 0).toNat ≠ 255 := fun h =>
        hcarry (BitVec.eq_of_toNat_eq (by rw [hadd, h]; rfl))
      rw [bePrefix, bePrefix_setIfInBounds_of_lt _ _ hi (by omega), getD_setIfInBounds _ _ _ _ hi, if_pos rfl, hadd,
        bePrefix, hpow, Nat.mod_eq_of_lt (by omega), Nat.mod_eq_of_lt (by omega)]
      rfl

theorem be128_incCtr (c : Block) : be128 (incCtr c) = (be128 c + 1) % 2 ^ 128 :=
  bePrefix_incCtrFrom c (i := 15) (by omega)

/-- Settles O32, by induction on the number of increments. -/
theorem counterIncrementAddsOne : Obligations.CounterIncrementAddsOne := by
  intro c k
  induction k with
  | zero => exact (Nat.mod_eq_of_lt (be128_lt c)).symm
  | succ k ih => rw [Function.iterate_succ_apply', be128_incCtr, ih, Nat.mod_add_mod, Nat.add_assoc]

/-- A counter is the `k`-th increment of `c` as soon as its integer says so. -/
theorem eq_iterate_incCtr {b c : Block} {k : Nat} (h : be128 b = (be128 c + k) % 2 ^ 128) : b = incCtr^[k] c :=
  be128_inj (h.trans (counterIncrementAddsOne c k).symm)

/-! ### Reads beside a write -/

/-- A range beside the changed one reads as before. -/
theorem sameOutside.read_eq {a n b m : Nat} {d d' : Memory} (h : sameOutside a n d d') (hb : b + m ≤ a ∨ a + n ≤ b) :
    d'.read b m = d.read b m :=
  Memory.read_congr fun i hi => h (b + i) (by omega)

/-- Buffers that read the same block by block read the same as a whole. -/
theorem Memory.read_eq_of_blocks {d e : Memory} {a b len : Nat} (hlen : len % 16 = 0)
    (h : ∀ k, k < len / 16 → d.read (a + 16 * k) 16 = e.read (b + 16 * k) 16) : d.read a len = e.read b len := by
  ext x hx
  have hbyte := congrArg (fun v : Block => v[x % 16]'(by omega)) (h (x / 16) (by omega))
  simp only [Memory.read_getElem, Nat.add_assoc, Nat.div_add_mod] at hbyte
  rw [Memory.read_getElem, Memory.read_getElem, hbyte]

@[simp] theorem Memory.write_empty (d : Memory) (a : Nat) (v : Bytes 0) : d.write a v = d := by
  obtain rfl : v = #v[] := by simp
  rfl

/-! ### ECB (R180, R181) -/

/-- Settles O17: the buffers are the ones `ecbBlocks` passes through, each step one block transform. -/
theorem ecbCompletesBlockByBlock : Obligations.EcbCompletesBlockByBlock := by
  intro s op f hop hp _ hr
  exact ⟨fun k => ecbBlocks f s.src.toNat s.dst.toNat k s.data, rfl,
    fun k _ => ⟨read_transformBlock _ _ _ _, sameOutside_transformBlock _ _ _ _⟩, exec_ecb hop hp hr⟩

/-- With no overrun, the blocks written before block `k` leave its input, and those after it leave its output. -/
theorem read_ecbBlocks (f : Block → Block) {src dst n : Nat} (d : Memory)
    (h : dst ≤ src ∨ src + 16 * n ≤ dst) {k : Nat} (hk : k < n) :
    (ecbBlocks f src dst n d).read (dst + 16 * k) 16 = f (d.read (src + 16 * k) 16) := by
  induction n with
  | zero => omega
  | succ n ih =>
    rw [ecbBlocks]
    rcases Nat.lt_succ_iff_lt_or_eq.1 hk with hlt | rfl
    · rw [(sameOutside_transformBlock f _ _ _).read_eq (by omega), ih (by omega) hlt]
    · rw [read_transformBlock, (ecbBlocks_sameOutside f src dst k d).read_eq (by omega)]

/-- Settles O18: LEN is whole blocks, so their outputs fill the destination range. -/
theorem ecbBlocksAreIndependent : Obligations.EcbBlocksAreIndependent := by
  intro s op f hop hp hlen hr ho
  have hwhole : 16 * (s.len.toNat / 16) = s.len.toNat := by omega
  refine ⟨_, exec_ecb hop hp hr, fun k hk => read_ecbBlocks f s.data ?_ hk, ?_⟩
  · rwa [hwhole]
  · exact (ecbBlocks_sameOutside f _ _ _ _).mono hwhole.le

/-- Settles O24: block by block, the second command decrypts what the first encrypted (40_primitive.md R147). -/
theorem ecbRoundTrip : Obligations.EcbRoundTrip := by
  intro s t u v hps hlen hrs hos hst hpu hdata hkey hlu hsrc hru hou huv
  obtain ⟨d, hd, henc, _⟩ := ecbBlocksAreIndependent s _ _ (.inl ⟨rfl, rfl⟩) hps hlen hrs hos
  obtain ⟨e, he, hdec, _⟩ := ecbBlocksAreIndependent u _ _ (.inr ⟨rfl, rfl⟩) hpu (hlu ▸ hlen) hru hou
  cases hst.symm.trans hd
  cases huv.symm.trans he
  rw [hdata, hkey, hlu, hsrc] at hdec
  refine Memory.read_eq_of_blocks hlen fun k hk => ?_
  calc e.read (u.dst.toNat + 16 * k) 16
    _ = decryptBlock (deriveSchedule (bytesLe s.key)) (d.read (s.dst.toNat + 16 * k) 16) := hdec k hk
    _ = s.data.read (s.src.toNat + 16 * k) 16 := by rw [henc k hk, (decryptInvertsEncrypt _ _).1]

/-! ### CTR (R182, R183) -/

@[simp] theorem ctrChunks_counter (rk : RoundKeys) (src dst n : Nat) (c : CtrRun) :
    (ctrChunks rk src dst n c).counter = incCtr^[n] c.counter := by
  induction n with
  | zero => rfl
  | succ n ih => rw [ctrChunks, ctrChunk, ih, Function.iterate_succ_apply']

/-- The partial chunk does not increment (R176). -/
@[simp] theorem ctrRun_counter (rk : RoundKeys) (src dst len : Nat) (c : CtrRun) :
    (ctrRun rk src dst len c).counter = incCtr^[len / 16] c.counter := ctrChunks_counter rk src dst (len / 16) c

/-- What the CTR command running in `s` carries after `k` full chunks. -/
def ctrAfter (s : State) (k : Nat) : CtrRun :=
  ctrChunks (deriveSchedule (bytesLe s.key)) s.src.toNat s.dst.toNat k ⟨bytesLe s.ctr, s.data⟩

theorem be128_ctrAfter_counter (s : State) (k : Nat) :
    be128 (ctrAfter s k).counter = (be128 (bytesLe s.ctr) + k) % 2 ^ 128 := by
  rw [ctrAfter, ctrChunks_counter, counterIncrementAddsOne]

/-- Settles O19: the buffers and counters are those of `ctrAfter`, each step one chunk; the tail is one more write. -/
theorem ctrCompletesChunkByChunk : Obligations.CtrCompletesChunkByChunk := by
  intro s op hop hp hr
  exact ⟨fun k => (ctrAfter s k).data, fun k => (ctrAfter s k).counter, _, rfl, rfl, be128_ctrAfter_counter s,
    fun _ _ => ⟨Memory.read_write _ _ _, sameOutside_write _ _ _⟩, Memory.read_write _ _ _, sameOutside_write _ _ _,
    exec_ctr hop hp hr⟩

/-- Settles O22: the working counter stored at the end is the one after the full chunks. -/
theorem workingCounterAdvances : Obligations.WorkingCounterAdvances := by
  intro s op hop hp hr
  refine ⟨_, exec_ctr hop hp hr, ?_⟩
  simp only [completed, bytesLe_wordsLe, ctrRun_counter]
  exact counterIncrementAddsOne _ _

/-- A full chunk writes what a partial chunk of 16 bytes would. -/
theorem ctrChunk_data (rk : RoundKeys) (src dst k : Nat) (c : CtrRun) :
    (ctrChunk rk src dst k c).data = (ctrTail rk src dst k 16 c).data := by
  have hwhole : blockPrefix 16 (keystream rk c.counter) = keystream rk c.counter :=
    Vector.ext fun _ hi => blockPrefix_getElem _ hi (Nat.le_refl 16)
  rw [ctrTail, hwhole]
  rfl

/-- The chunk's own bytes: input XOR keystream (R173). -/
theorem readByte_ctrTail (rk : RoundKeys) (src dst n : Nat) (c : CtrRun) {m i : Nat} (hm : m ≤ 16) (hi : i < m) :
    (ctrTail rk src dst n m c).data.readByte (dst + 16 * n + i) =
      c.data.readByte (src + 16 * n + i) ^^^ (keystream rk c.counter).getD i 0 := by
  rw [ctrTail, Memory.readByte_write, dif_pos (by omega)]
  simp only [Nat.add_sub_cancel_left, xorBytes_getElem, Memory.read_getElem, blockPrefix_getElem _ hi hm]
  rw [getD_eq_getElem _ _ (by omega)]

theorem ctrTail_sameOutside (rk : RoundKeys) (src dst n m : Nat) (c : CtrRun) :
    sameOutside (dst + 16 * n) m c.data (ctrTail rk src dst n m c).data := sameOutside_write _ _ _

/-- Byte `x` of CTR as 41_modes.md R186 has it: the input byte XOR byte `x mod 16` of the encrypted counter
`C0 + x/16`. -/
def ctrByte (rk : RoundKeys) (src : Nat) (c : CtrRun) (x : Nat) : Byte :=
  c.data.readByte (src + x) ^^^ (keystream rk (incCtr^[x / 16] c.counter)).getD (x % 16) 0

/-- With no overrun, the chunk after `n` full ones finds its input as it was. -/
theorem readByte_ctrTail_ctrChunks (rk : RoundKeys) {src dst n m x : Nat} (c : CtrRun) (hm : m ≤ 16)
    (h : dst ≤ src ∨ src + (16 * n + m) ≤ dst) (hn : 16 * n ≤ x) (hx : x < 16 * n + m) :
    (ctrTail rk src dst n m (ctrChunks rk src dst n c)).data.readByte (dst + x) = ctrByte rk src c x := by
  obtain ⟨i, rfl⟩ := Nat.exists_eq_add_of_le hn
  have hdiv : (16 * n + i) / 16 = n := by omega
  have hmod : (16 * n + i) % 16 = i := by omega
  rw [ctrByte, hdiv, hmod, ← Nat.add_assoc, ← Nat.add_assoc, readByte_ctrTail _ _ _ _ _ hm (by omega),
    ctrChunks_counter, ctrChunks_sameOutside _ _ _ _ _ _ (by omega)]

/-- Every byte of the full chunks, the last of them or one before it. -/
theorem readByte_ctrChunks (rk : RoundKeys) {src dst n x : Nat} (c : CtrRun) (h : dst ≤ src ∨ src + 16 * n ≤ dst)
    (hx : x < 16 * n) : (ctrChunks rk src dst n c).data.readByte (dst + x) = ctrByte rk src c x := by
  induction n with
  | zero => omega
  | succ n ih =>
    rw [ctrChunks, ctrChunk_data]
    by_cases hn : 16 * n ≤ x
    · exact readByte_ctrTail_ctrChunks rk c (Nat.le_refl 16) h hn hx
    · rw [ctrTail_sameOutside _ _ _ _ _ _ _ (by omega), ih (by omega) (by omega)]

/-- Every byte of a CTR command's output, in the final partial chunk or before it. -/
theorem readByte_ctrRun (rk : RoundKeys) {src dst len x : Nat} (c : CtrRun) (h : dst ≤ src ∨ src + len ≤ dst)
    (hx : x < len) : (ctrRun rk src dst len c).data.readByte (dst + x) = ctrByte rk src c x := by
  rw [ctrRun]
  by_cases hn : 16 * (len / 16) ≤ x
  · exact readByte_ctrTail_ctrChunks rk c (by omega) (by omega) hn (by omega)
  · rw [ctrTail_sameOutside _ _ _ _ _ _ _ (by omega), readByte_ctrChunks rk c (by omega) (by omega)]

/-- Settles O20: the integer picks the one counter of `ctrByte`, and XOR with the input takes the input off again. -/
theorem ctrOutputXorInputIsTheKeystream : Obligations.CtrOutputXorInputIsTheKeystream := by
  intro s op hop hp hr ho
  refine ⟨_, exec_ctr hop hp hr, fun x hx c hc => ?_⟩
  rw [eq_iterate_incCtr hc]
  simp only [completed]
  rw [readByte_ctrRun _ _ ho hx, ctrByte, BitVec.xor_comm, ← BitVec.xor_assoc, BitVec.xor_self, BitVec.zero_xor]
  rfl

/-- Settles O25: both commands XOR the same keystream byte (R184), so the second takes off what the first put on. -/
theorem ctrRoundTrip : Obligations.CtrRoundTrip := by
  intro s t u v op op' hop hop' hps hrs hos hst hpu hdata hkey hctr hlu hsrc hru hou huv
  obtain ⟨t', ht, hs⟩ := ctrOutputXorInputIsTheKeystream s op hop hps hrs hos
  obtain ⟨v', hv, hu⟩ := ctrOutputXorInputIsTheKeystream u op' hop' hpu hru hou
  cases hst.symm.trans ht
  cases huv.symm.trans hv
  rw [hdata, hkey, hctr, hlu, hsrc] at hu
  refine Vector.ext fun x hx => ?_
  have hc := counterIncrementAddsOne (bytesLe s.ctr) (x / 16)
  have hsame := (hu x hx _ hc).trans (hs x hx _ hc).symm
  rw [BitVec.xor_comm] at hsame
  rw [Memory.read_getElem, Memory.read_getElem]
  exact (BitVec.xor_right_inj _).1 hsame

/-! ### CTR_DEC is CTR_ENC (R183) -/

theorem exec_of_phase_running {i : Instr} {s : State} (h : s.phase = .running i) :
    exec i s = completeCommand i (commandEffect i) s := by
  simp [exec_eq_runCommand, runCommand, h]

/-- Both check the same ranges, and nothing else. -/
theorem checkCommand_ctrDec (s : State) : checkCommand .ctrDec s = checkCommand .ctrEnc s := rfl

/-- Settles O21: completion leaves the phase idle whichever of the two ran, and a start differs only when accepted. -/
theorem ctrDecryptIsCtrEncrypt : Obligations.CtrDecryptIsCtrEncrypt := by
  intro s
  constructor
  · rw [exec_of_phase_running rfl, exec_of_phase_running rfl]
    rfl
  · intro hp
    refine ⟨_, _, exec_of_idle hp, exec_of_idle hp, ?_⟩
    rw [startCommand, startCommand, checkCommand_ctrDec]
    cases checkCommand .ctrEnc s with
    | some code => exact .inl ⟨rfl, hp⟩
    | none => exact .inr ⟨rfl, rfl, rfl⟩

/-! ### LEN = 0 (R178) -/

/-- The mode commands derive their own schedule (R175). -/
theorem usesStoredSchedule_of_mode {op : Instr} (hop : op ∈ [Instr.ecbEnc, .ecbDec, .ctrEnc, .ctrDec]) :
    usesStoredSchedule op = false := by
  cases op with
  | keysched | encBlock | decBlock => simp at hop
  | ecbEnc | ecbDec | ctrEnc | ctrDec => rfl

/-- A mode command has no check but those of LEN and the ranges. -/
theorem checkCommand_of_mode {s : State} {op : Instr} (hop : op ∈ [Instr.ecbEnc, .ecbDec, .ctrEnc, .ctrDec])
    (hlen : s.len.toNat % 16 = 0) (hr : inRange s s.len.toNat) : checkCommand op s = none := by
  have hrange : rangeFails op s = false := rangeFails_of_inRange (dataLength_of_mode hop s) hr
  simp [checkCommand, hrange, usesStoredSchedule_of_mode hop, byteLength, hlen]

/-- Settles O23: no block, no chunk, and a tail of 0 bytes. -/
theorem zeroLengthTouchesNoData : Obligations.ZeroLengthTouchesNoData := by
  intro s op hop hlen hr
  have hzero : s.len.toNat = 0 := by rw [hlen]; rfl
  rw [← hzero] at hr
  constructor
  · intro hp
    rw [exec_of_idle hp, startCommand, checkCommand_of_mode hop (by rw [hzero]) hr]
    rfl
  · intro hp
    simp only [List.mem_cons, List.not_mem_nil, or_false] at hop
    rcases hop with rfl | rfl | hctr
    · rw [exec_ecb (.inl ⟨rfl, rfl⟩) hp hr, hzero]
      rfl
    · rw [exec_ecb (.inr ⟨rfl, rfl⟩) hp hr, hzero]
      rfl
    · rw [exec_ctr hctr hp hr, hzero, if_pos hctr]
      simp [ctrRun, ctrTail, ctrChunks]

end Sys2Proof.Machine
end

section
/-! PROOFS. Starting a command (60_exceptions.md R201 to R208): the checks of `checkCommand` in the words of the rules,
which of them is reported, and the CMD write that runs them. -/

namespace Sys2Proof.Machine

/-! ### The checks, as the rules state them -/

/-- R202: an ECB command with LEN no multiple of 16. -/
def LengthFault (op : Instr) (s : State) : Prop := (op = .ecbEnc ∨ op = .ecbDec) ∧ s.len.toNat % 16 ≠ 0

/-- `n` of R203 for a data command. -/
def checkedLength (op : Instr) (s : State) : Nat := if op = .encBlock ∨ op = .decBlock then 16 else s.len.toNat

/-- R203: a data command with a range that passes the end of DATA. -/
def RangeFault (op : Instr) (s : State) : Prop := op ≠ .keysched ∧ ¬ inRange s (checkedLength op s)

/-- R204: a block command without a schedule. -/
def ScheduleFault (op : Instr) (s : State) : Prop := (op = .encBlock ∨ op = .decBlock) ∧ s.schedValid = false

theorem lengthFault_iff (op : Instr) (s : State) :
    LengthFault op s ↔ (isEcb op && byteLength s % 16 != 0) = true := by
  cases op <;> simp [LengthFault, isEcb, byteLength]

theorem rangeFault_iff (op : Instr) (s : State) : RangeFault op s ↔ rangeFails op s = true := by
  have passes_end : ∀ n, ¬ inRange s n ↔ s.cfg.dataBytes < srcOffset s + n ∨ s.cfg.dataBytes < dstOffset s + n := by
    intro n
    unfold inRange srcOffset dstOffset
    omega
  cases op <;> simp [RangeFault, checkedLength, passes_end, rangeFails, dataLength, byteLength]

theorem scheduleFault_iff (op : Instr) (s : State) :
    ScheduleFault op s ↔ (usesStoredSchedule op && !s.schedValid) = true := by
  cases op <;> simp [ScheduleFault, usesStoredSchedule]

/-- Which check is reported (R207): the first of the three that fails. -/
theorem checkCommand_cases (op : Instr) (s : State) :
    (LengthFault op s ∧ checkCommand op s = some .length) ∨
    (¬ LengthFault op s ∧ RangeFault op s ∧ checkCommand op s = some .range) ∨
    (¬ LengthFault op s ∧ ¬ RangeFault op s ∧ ScheduleFault op s ∧ checkCommand op s = some .noSched) ∨
    (¬ LengthFault op s ∧ ¬ RangeFault op s ∧ ¬ ScheduleFault op s ∧ checkCommand op s = none) := by
  rw [lengthFault_iff, rangeFault_iff, scheduleFault_iff]
  unfold checkCommand
  split
  · rename_i hl
    exact .inl ⟨hl, rfl⟩
  · rename_i hl
    split
    · rename_i hr
      exact .inr (.inl ⟨hl, hr, rfl⟩)
    · rename_i hr
      split
      · rename_i hs
        exact .inr (.inr (.inl ⟨hl, hr, hs, rfl⟩))
      · rename_i hs
        exact .inr (.inr (.inr ⟨hl, hr, hs, rfl⟩))

/-! ### `exec` while idle -/

section
variable {op : Instr} {s : State} (hp : s.phase = .idle)
include hp

theorem exec_of_checkCommand_some {code : ErrCode} (h : checkCommand op s = some code) :
    exec op s = .next { s with done := true, err := code } := by
  rw [exec_of_idle hp, startCommand, h]
  rfl

theorem exec_of_lengthFault (hl : LengthFault op s) : exec op s = .next { s with done := true, err := .length } := by
  rcases checkCommand_cases op s with ⟨_, h⟩ | ⟨hl', _⟩ | ⟨hl', _⟩ | ⟨hl', _⟩
  · exact exec_of_checkCommand_some hp h
  all_goals exact absurd hl hl'

theorem exec_of_rangeFault (hl : ¬ LengthFault op s) (hr : RangeFault op s) :
    exec op s = .next { s with done := true, err := .range } := by
  rcases checkCommand_cases op s with ⟨hl', _⟩ | ⟨_, _, h⟩ | ⟨_, hr', _⟩ | ⟨_, hr', _⟩
  · exact absurd hl' hl
  · exact exec_of_checkCommand_some hp h
  all_goals exact absurd hr hr'

theorem exec_of_scheduleFault (hl : ¬ LengthFault op s) (hr : ¬ RangeFault op s) (hs : ScheduleFault op s) :
    exec op s = .next { s with done := true, err := .noSched } := by
  rcases checkCommand_cases op s with ⟨hl', _⟩ | ⟨_, hr', _⟩ | ⟨_, _, _, h⟩ | ⟨_, _, hs', _⟩
  · exact absurd hl' hl
  · exact absurd hr' hr
  · exact exec_of_checkCommand_some hp h
  · exact absurd hs hs'

/-- A command that passes its checks is accepted (R205). -/
theorem exec_of_no_fault (hl : ¬ LengthFault op s) (hr : ¬ RangeFault op s) (hs : ¬ ScheduleFault op s) :
    exec op s = .next { s with phase := .running op, done := false, err := .ok } := by
  rcases checkCommand_cases op s with ⟨hl', _⟩ | ⟨_, hr', _⟩ | ⟨_, _, hs', _⟩ | ⟨_, _, _, h⟩
  · exact absurd hl' hl
  · exact absurd hr' hr
  · exact absurd hs' hs
  · rw [exec_of_idle hp, startCommand, h]
    rfl

/-- No code but the one of the failing check is reported. -/
theorem exec_err_ne {code : ErrCode} (hcode : code ≠ .ok) (h : checkCommand op s ≠ some code) :
    ∃ t, exec op s = .next t ∧ t.err ≠ code := by
  refine ⟨startCommand op s, exec_of_idle hp, ?_⟩
  rcases startCommand_cases op s with ⟨_, heq⟩ | ⟨reported, hcheck, heq⟩
  · rw [heq]
    exact hcode.symm
  · rw [heq]
    rintro rfl
    exact h hcheck

theorem exec_err_ne_length (hl : ¬ LengthFault op s) : ∃ t, exec op s = .next t ∧ t.err ≠ .length := by
  refine exec_err_ne (code := .length) hp nofun ?_
  rcases checkCommand_cases op s with ⟨hl', _⟩ | ⟨_, _, h⟩ | ⟨_, _, _, h⟩ | ⟨_, _, _, h⟩
  · exact absurd hl' hl
  all_goals
    rw [h]
    nofun

theorem exec_err_ne_range (hr : ¬ RangeFault op s) : ∃ t, exec op s = .next t ∧ t.err ≠ .range := by
  refine exec_err_ne (code := .range) hp nofun ?_
  rcases checkCommand_cases op s with ⟨_, h⟩ | ⟨_, hr', _⟩ | ⟨_, _, _, h⟩ | ⟨_, _, _, h⟩
  · rw [h]
    nofun
  · exact absurd hr' hr
  all_goals
    rw [h]
    nofun

end

/-! ### The checks of each kind of command -/

theorem not_lengthFault_of_multiple {op : Instr} {s : State} (h : s.len.toNat % 16 = 0) : ¬ LengthFault op s :=
  fun hl => hl.2 h

theorem not_rangeFault_of_inRange {op : Instr} {s : State} (h : inRange s (checkedLength op s)) :
    ¬ RangeFault op s := fun hr => hr.2 h

/-- The block commands check 16 bytes and no LEN. -/
theorem block_checks {op : Instr} (h : op = .encBlock ∨ op = .decBlock) (s : State) :
    ¬ LengthFault op s ∧ (RangeFault op s ↔ ¬ inRange s 16) := by
  rcases h with rfl | rfl
  · simp [LengthFault, RangeFault, checkedLength]
  · simp [LengthFault, RangeFault, checkedLength]

/-- The mode commands check LEN bytes and no schedule. -/
theorem mode_checks {op : Instr} (h : op ∈ [Instr.ecbEnc, .ecbDec, .ctrEnc, .ctrDec]) (s : State) :
    (RangeFault op s ↔ ¬ inRange s s.len.toNat) ∧ ¬ ScheduleFault op s := by
  cases op with
  | keysched | encBlock | decBlock => simp at h
  | ecbEnc | ecbDec | ctrEnc | ctrDec => simp [RangeFault, checkedLength, ScheduleFault]

theorem not_lengthFault_of_ctr {op : Instr} (h : op = .ctrEnc ∨ op = .ctrDec) (s : State) : ¬ LengthFault op s := by
  rcases h with rfl | rfl
  · simp [LengthFault]
  · simp [LengthFault]

theorem mode_iff {op : Instr} : op ∈ [Instr.ecbEnc, .ecbDec, .ctrEnc, .ctrDec] ↔
    (op = .ecbEnc ∨ op = .ecbDec) ∨ (op = .ctrEnc ∨ op = .ctrDec) := by
  simp [or_assoc]

/-- KEYSCHED has no check. -/
theorem keysched_checks (s : State) :
    ¬ LengthFault .keysched s ∧ ¬ RangeFault .keysched s ∧ ¬ ScheduleFault .keysched s := by
  simp [LengthFault, RangeFault, ScheduleFault]

/-- Settles O7: in each clause none of the three checks fails. -/
theorem passingCommandIsAccepted : Obligations.PassingCommandIsAccepted := by
  intro s hp
  refine ⟨?keysched, ?block, ?ecb, ?ctr⟩
  case keysched =>
    obtain ⟨hl, hr, hs⟩ := keysched_checks s
    exact exec_of_no_fault hp hl hr hs
  case block =>
    intro op hop hin hvalid
    obtain ⟨hl, hr⟩ := block_checks hop s
    have hs : ¬ ScheduleFault op s := fun hs => absurd (hvalid.symm.trans hs.2) nofun
    exact exec_of_no_fault hp hl (hr.not_left.2 hin) hs
  case ecb =>
    intro op hop hmul hin
    obtain ⟨hr, hs⟩ := mode_checks (mode_iff.2 (.inl hop)) s
    exact exec_of_no_fault hp (not_lengthFault_of_multiple hmul) (hr.not_left.2 hin) hs
  case ctr =>
    intro op hop hin
    obtain ⟨hr, hs⟩ := mode_checks (mode_iff.2 (.inr hop)) s
    exact exec_of_no_fault hp (not_lengthFault_of_ctr hop s) (hr.not_left.2 hin) hs

/-- Settles O8: whether LENGTH is reported is `LengthFault`, the first of the checks. -/
theorem ecbLengthIsCheckedFirst : Obligations.EcbLengthIsCheckedFirst := by
  intro s op hp
  refine ⟨fun hop => ⟨fun hlen => exec_of_lengthFault hp ⟨hop, hlen⟩,
    fun hmul => exec_err_ne_length hp (not_lengthFault_of_multiple hmul)⟩, fun hop => exec_err_ne_length hp ?_⟩
  rintro ⟨rfl | rfl, _⟩
  · simp at hop
  · simp at hop

/-- Settles O9: whether RANGE is reported, once LEN is right, is `RangeFault`. -/
theorem rangeIsReported : Obligations.RangeIsReported := by
  intro s hp
  refine ⟨?keysched, ?blockInside, ?modeInside, ?block, ?ecb, ?ctr⟩
  case keysched =>
    obtain ⟨_, hr, _⟩ := keysched_checks s
    exact exec_err_ne_range hp hr
  case blockInside =>
    intro op hop hin
    obtain ⟨_, hr⟩ := block_checks hop s
    exact exec_err_ne_range hp (hr.not_left.2 hin)
  case modeInside =>
    intro op hop hin
    obtain ⟨hr, _⟩ := mode_checks hop s
    exact exec_err_ne_range hp (hr.not_left.2 hin)
  case block =>
    intro op hop hout
    obtain ⟨hl, hr⟩ := block_checks hop s
    exact exec_of_rangeFault hp hl (hr.2 hout)
  case ecb =>
    intro op hop hmul hout
    obtain ⟨hr, _⟩ := mode_checks (mode_iff.2 (.inl hop)) s
    exact exec_of_rangeFault hp (not_lengthFault_of_multiple hmul) (hr.2 hout)
  case ctr =>
    intro op hop hout
    obtain ⟨hr, _⟩ := mode_checks (mode_iff.2 (.inr hop)) s
    exact exec_of_rangeFault hp (not_lengthFault_of_ctr hop s) (hr.2 hout)

/-- Settles O10: the schedule is the one check left. -/
theorem blockCommandNeedsASchedule : Obligations.BlockCommandNeedsASchedule := by
  intro s op hp hop hin hvalid
  obtain ⟨hl, hr⟩ := block_checks hop s
  exact exec_of_scheduleFault hp hl (hr.not_left.2 hin) ⟨hop, hvalid⟩

theorem exec_of_other_running {op other : Instr} {s : State} (hp : s.phase = .running other) (hne : other ≠ op) :
    exec op s = .next (refuseAccess s) := by
  simp [exec_eq_runCommand, runCommand, hp, hne]

/-- Settles O12: `exec` answers `refuseAccess`, which sets ACCERR alone. -/
theorem commandIsRefusedWhileAnotherRuns : Obligations.CommandIsRefusedWhileAnotherRuns :=
  fun _ _ _ => exec_of_other_running

/-! ### The CMD write -/

/-- While idle a CMD write is performed (20_memory.md R92). -/
theorem step_of_cmd_write {s : State} {w : Word} {rest : List Input} (hp : s.phase = .idle)
    (hx : presents s (.write 0x00C .bits32 w) rest) :
    step s = writeCmd w { s with inputs := rest, resp := some ⟨none, false⟩ } :=
  step_of_performed_write hx rfl (by omega) (.inl hp)

/-- Settles O4: the write of a word that decodes is its command's `exec`. -/
theorem stepRunsTheWrittenCommand : Obligations.StepRunsTheWrittenCommand := by
  intro s w i rest hp hx hdecode
  rw [step_of_cmd_write hp hx, writeCmd, hdecode]

/-- A word that is no command is BADCMD (60_exceptions.md R201, R206). -/
theorem step_of_bad_word {s : State} {w : Word} {rest : List Input} (hp : s.phase = .idle)
    (hx : presents s (.write 0x00C .bits32 w) rest) (hbad : ∀ op, decode w ≠ .ok op) :
    step s = .next { s with inputs := rest, resp := some ⟨none, false⟩, done := true, err := .badCmd } := by
  rw [step_of_cmd_write hp hx, writeCmd]
  cases hdecode : decode w with
  | ok op => exact absurd hdecode (hbad op)
  | error e => rfl

/-- No command's word has a reserved bit set or an unassigned opcode (30_encoding.md R111). -/
theorem encode_legal (i : Instr) :
    ¬(rsvField (encode i) ≠ 0 ∨ opField (encode i) = 0 ∨ 8 ≤ (opField (encode i)).toNat) := by
  cases i <;> decide

/-- Settles O6: a word that decodes is some command's word, so it is legal. -/
theorem illegalWordIsBadcmd : Obligations.IllegalWordIsBadcmd := by
  intro s w rest hp hx hillegal
  refine step_of_bad_word hp hx fun op hdecode => ?_
  obtain rfl := (decode_eq_ok_iff w op).1 hdecode
  exact encode_legal op hillegal

/-- Settles O11: the clauses are BADCMD, the three checks in order, and acceptance. -/
theorem checksRunInOrder : Obligations.ChecksRunInOrder := by
  intro s w rest hp hx
  refine ⟨step_of_bad_word hp hx, ?_⟩
  rintro op hdecode n rfl
  have hstep := stepRunsTheWrittenCommand s w op rest hp hx hdecode
  refine ⟨?length, ?range, ?schedule, ?accepted⟩
  case length =>
    intro hl
    exact hstep.trans (exec_of_lengthFault hp hl)
  case range =>
    intro hl hdata hout
    exact hstep.trans (exec_of_rangeFault hp hl ⟨hdata, hout⟩)
  case schedule =>
    intro hop hin hvalid
    obtain ⟨hl, _⟩ := block_checks hop s
    exact hstep.trans (exec_of_scheduleFault hp hl (not_rangeFault_of_inRange hin) ⟨hop, hvalid⟩)
  case accepted =>
    intro hl hrange hs
    have hr : ¬ RangeFault op s := fun hr => hrange.elim hr.1 hr.2
    exact hstep.trans (exec_of_no_fault hp hl hr hs)

end Sys2Proof.Machine
end

section
/-! PROOFS. What sets DONE (10_state.md R49, 60_exceptions.md R212): a completion and a command error, operation by
operation. -/

namespace Sys2Proof.Machine

theorem pageReg_eq_cmd {w : Nat} (h : pageReg w = .cmd) : w = 3 := by
  have named : ∀ w < 20, pageReg w = .cmd → w = 3 := by decide
  by_cases hw : w < 20
  · exact named w hw h
  · rw [pageReg_of_ge (by omega)] at h
    cases h

/-- Only offset 0x00C names CMD (10_state.md R40). -/
theorem regAt_eq_cmd {off : Nat} (ha : off % 4 = 0) (h : regAt off = .cmd) : off = 0x00C := by
  unfold regAt at h
  split at h
  · have := pageReg_eq_cmd h
    omega
  · cases h

theorem readReg_done (r : Reg) (s : State) : (readReg r s).done = s.done := by
  unfold readReg
  split
  · rfl
  · rfl

theorem respondInReset_done (x : Txn) (s : State) : (respondInReset x s).done = s.done := by
  cases x with
  | read off size => rfl
  | write off size v => rfl

/-- A CTRL write clears DONE or leaves it. -/
theorem writeCtrl_done_of_not_done {s : State} (h : s.done = false) (v : Word) : (writeCtrl v s).done = false := by
  unfold writeCtrl
  split
  · rfl
  · exact h

/-- A CMD write reports an error exactly where it leaves DONE set, and then starts no command (60_exceptions.md R205,
R206). -/
theorem writeCmd_sets_done {w : Word} {s t : State} (hp : s.phase = .idle) (h : writeCmd w s = .next t)
    (hset : t.done = true) : t.err ≠ .ok ∧ t.phase = .idle := by
  rcases writeCmd_idle (w := w) hp with ⟨i, _, hw⟩ | ⟨_, _, hw⟩
  · cases h.symm.trans hw
    rcases startCommand_cases i s with ⟨_, heq⟩ | ⟨code, hcheck, heq⟩
    · rw [heq] at hset
      cases hset
    · rw [heq]
      exact ⟨(checkCommand_code hcheck).1, hp⟩
  · cases h.symm.trans hw
    exact ⟨nofun, hp⟩

/-- Of the writes only one to CMD, while idle, sets DONE. -/
theorem writeReg_sets_done {r : Reg} {v : Word} {s t : State} (h : writeReg r v s = .next t) (hclear : s.done = false)
    (hset : t.done = true) : r = .cmd ∧ s.phase = .idle ∧ t.err ≠ .ok ∧ t.phase = .idle := by
  unfold writeReg at h
  split at h
  · cases h
    cases hclear.symm.trans hset
  · rename_i hnr
    cases r with
    | cmd =>
      have hidle : s.phase = .idle := (performed_of_not_refused hnr).resolve_right nofun
      exact ⟨rfl, hidle, writeCmd_sets_done (s := respond none false s) hidle h hset⟩
    | ctrl =>
      cases h
      cases (writeCtrl_done_of_not_done (s := respond none false s) hclear v).symm.trans hset
    | status =>
      cases h
      simp [hclear] at hset
    | id | src | dst | len | key | ctr | ctrw | reserved | data =>
      cases h
      cases hclear.symm.trans hset

/-- Of the transactions only a CMD write, while idle, sets DONE. -/
theorem transact_sets_done {x : Txn} {s t : State} (h : transact x s = .next t) (hclear : s.done = false)
    (hset : t.done = true) :
    ∃ w, x = .write 0x00C .bits32 w ∧ s.rstN = true ∧ s.phase = .idle ∧ t.err ≠ .ok ∧ t.phase = .idle := by
  rcases transact_next_cases h with
    ⟨_, rfl⟩ | ⟨_, _, rfl⟩ | ⟨_, _, off, _, _, rfl⟩ | ⟨hr, hwf, off, size, v, rfl, hw⟩
  · cases hclear.symm.trans ((respondInReset_done x s).symm.trans hset)
  · cases hclear.symm.trans hset
  · cases hclear.symm.trans ((readReg_done (regAt off) s).symm.trans hset)
  · obtain ⟨hcmd, hidle, herror⟩ := writeReg_sets_done hw hclear hset
    obtain ⟨hsize, ha, _⟩ := (Txn.wf_iff _ _).1 hwf
    obtain rfl : size = .bits32 := hsize
    obtain rfl := regAt_eq_cmd ha hcmd
    exact ⟨v, rfl, hr, hidle, herror⟩

/-- Settles O49, by the input the step takes. -/
theorem onlyCompletionOrErrorSetsDone : Obligations.OnlyCompletionOrErrorSetsDone := by
  intro s t h
  refine ⟨rfl, fun hclear hset => ?_⟩
  rcases step_next_cases h with
    ⟨rfl, _⟩ | ⟨op, hr, hp, hhead, hexec⟩ | ⟨_, rfl⟩ | ⟨_, rfl⟩ | ⟨x, hhead, hbus⟩
  · cases hclear.symm.trans hset
  · obtain ⟨_, rfl⟩ := exec_running_next (s := s.taken) hp hexec
    exact .inl ⟨op, _, hp, engineNext_of_head hr hhead, rfl⟩
  · cases hset
  · cases hclear.symm.trans hset
  · obtain ⟨w, rfl, hr, hidle, herr, hidle'⟩ := transact_sets_done (s := s.taken) hbus hclear hset
    exact .inr ⟨w, _, hidle, presents_of_head hr hhead, herr, hidle'⟩

end Sys2Proof.Machine
end

section
/-! PROOFS. The invariant (`State.Inv`), operation by operation: what keeps it, and that a state which satisfies it
always has a next one (60_exceptions.md R209, R210). -/

namespace Sys2Proof.Machine

/-! ### Updates the invariant allows -/

/-- The invariant reads neither the response nor the model's own bookkeeping (logs 7, 8, 13). -/
theorem State.Inv.bookkeeping {s : State} (h : s.Inv) (resp : Option Response) (draws : Nat) (inputs : List Input) :
    State.Inv { s with resp := resp, draws := draws, inputs := inputs } where
  cfgLegal := h.cfgLegal
  dataCanonical := h.dataCanonical
  runningChecked := h.runningChecked
  noSchedErr := h.noSchedErr
  held hr := { h.held hr with }

theorem State.Inv.taken {s : State} (h : s.Inv) : s.taken.Inv := h.bookkeeping s.resp s.draws s.inputs.tail

/-- Out of reset the host's part of the state is free, except that a running command's DONE stays 0. -/
theorem State.Inv.withHost {s : State} {p : HostSide} (h : s.Inv) (hr : s.rstN = true)
    (hd : s.done = false → p.done = false) : (s.withHost p).Inv where
  cfgLegal := h.cfgLegal
  dataCanonical := h.dataCanonical
  runningChecked op hp := by
    obtain ⟨hdone, herr, hcheck⟩ := h.runningChecked op hp
    exact ⟨hd hdone, herr, hcheck⟩
  noSchedErr := h.noSchedErr
  held hlow := absurd (hr.symm.trans hlow) nofun

/-- While idle and out of reset the invariant is about the parameters, DATA and NOSCHED alone. -/
theorem State.Inv.of_idle {s t : State} (h : s.Inv) (hcfg : t.cfg = s.cfg) (hr : t.rstN = true)
    (hp : t.phase = .idle) (hdata : t.data.wf s.cfg.dataBytes) (hns : t.err = .noSched → t.schedValid = false) :
    t.Inv where
  cfgLegal := hcfg ▸ h.cfgLegal
  dataCanonical := hcfg ▸ hdata
  runningChecked _ hrun := absurd (hp.symm.trans hrun) nofun
  noSchedErr := hns
  held hlow := absurd (hr.symm.trans hlow) nofun

/-! ### Commands -/

/-- A start keeps the invariant: an accepted command has passed its checks, and NOSCHED is reported only without a
schedule (60_exceptions.md R204, R205). -/
theorem State.Inv.startCommand {s : State} (h : s.Inv) (hr : s.rstN = true) (hp : s.phase = .idle) (i : Instr) :
    (startCommand i s).Inv := by
  rcases startCommand_cases i s with ⟨hcheck, heq⟩ | ⟨code, hcheck, heq⟩
  · rw [heq]
    exact {
      cfgLegal := h.cfgLegal
      dataCanonical := h.dataCanonical
      runningChecked := by
        rintro op ⟨⟩
        exact ⟨rfl, rfl, hcheck⟩
      noSchedErr := nofun
      held := fun hlow => absurd (hr.symm.trans hlow) nofun }
  · rw [heq]
    exact h.of_idle rfl hr hp h.dataCanonical (checkCommand_code hcheck).2

/-- A completion keeps the invariant: its ranges are inside DATA, and ERR has been 0 since the start. -/
theorem State.Inv.finishCommand {s : State} {op : Instr} (h : s.Inv) (hr : s.rstN = true)
    (hp : s.phase = .running op) : (finishCommand (commandEffect op s)).Inv := by
  obtain ⟨_, herr, hcheck⟩ := h.runningChecked op hp
  obtain ⟨hcfg, _, _, _, herr', _, _, _, _, _, _, hrstN, _⟩ := commandEffect_frame op s
  refine h.of_idle hcfg (hrstN.trans hr) rfl (commandEffect_wf h.dataCanonical (rangeFails_of_check hcheck)) ?_
  intro hns
  exact absurd (hns.symm.trans (herr'.trans herr)) nofun

/-! ### Resets -/

/-- Registers at their reset values are sound over any canonical DATA, which is an unlisted one while held. -/
theorem resetRegisters_inv {s : State} (hcfg : s.cfg.wf = true) (hdata : s.data.wf s.cfg.dataBytes)
    (hcells : s.rstN = false → s.data.cells = []) : (resetRegisters s).Inv where
  cfgLegal := hcfg
  dataCanonical := hdata
  runningChecked := nofun
  noSchedErr := nofun
  held hlow := ⟨rfl, rfl, rfl, rfl, rfl, rfl, rfl, rfl, rfl, rfl, rfl, rfl, hcells hlow⟩

theorem State.Inv.powerOnReset {s : State} (h : s.Inv) : (powerOnReset s).Inv :=
  resetRegisters_inv h.cfgLegal ⟨List.Pairwise.nil, nofun⟩ fun _ => rfl

/-- The range an abort scrambles is cut at the end of DATA (log 16). -/
theorem abortedLength_inside (s : State) :
    abortedLength s = 0 ∨ dstOffset s + abortedLength s ≤ s.cfg.dataBytes := by
  unfold abortedLength
  split
  · exact .inl rfl
  · omega

theorem State.Inv.softReset {s : State} (h : s.Inv) (hr : s.rstN = true) : (softReset s).Inv :=
  resetRegisters_inv h.cfgLegal (Memory.scramble_wf h.dataCanonical (abortedLength_inside s))
    fun hlow => absurd (hr.symm.trans hlow) nofun

/-! ### Transactions -/

theorem State.Inv.respond {s : State} (h : s.Inv) (r : Option Word) (e : Bool) : (respond r e s).Inv :=
  h.bookkeeping (some ⟨r, e⟩) s.draws s.inputs

theorem State.Inv.refuseAccess {s : State} (h : s.Inv) (hr : s.rstN = true) : (refuseAccess s).Inv :=
  h.withHost (p := { s.host with accerr := true }) hr id

theorem State.Inv.respondInReset {s : State} (h : s.Inv) (x : Txn) : (respondInReset x s).Inv := by
  cases x with
  | read off size => exact h.bookkeeping _ _ _
  | write off size v => exact h.bookkeeping _ _ _

theorem State.Inv.readReg {s : State} (h : s.Inv) (hr : s.rstN = true) (r : Reg) : (readReg r s).Inv := by
  unfold Machine.readReg
  split
  · exact (h.respond (some 0) false).refuseAccess hr
  · exact h.respond _ false

theorem State.Inv.writeIe {s : State} (h : s.Inv) (hr : s.rstN = true) (v : Word) : (writeIe v s).Inv :=
  h.withHost (p := { s.host with ie := v.getLsbD 0 }) hr id

theorem State.Inv.writeStatus {s : State} (h : s.Inv) (hr : s.rstN = true) (v : Word) : (writeStatus v s).Inv :=
  h.withHost (p := { s.host with done := s.done && !v.getLsbD 1, accerr := s.accerr && !v.getLsbD 3 }) hr
    fun hd => by simp [hd]

theorem State.Inv.writeCtrl {s : State} (h : s.Inv) (hr : s.rstN = true) (v : Word) : (writeCtrl v s).Inv := by
  unfold Machine.writeCtrl
  split
  · exact (h.writeIe hr v).softReset hr
  · exact h.writeIe hr v

theorem State.Inv.writeCmd {s t : State} (h : s.Inv) (hr : s.rstN = true) (hp : s.phase = .idle) {w : Word}
    (hw : writeCmd w s = .next t) : t.Inv := by
  rcases writeCmd_idle (w := w) hp with ⟨i, _, hi⟩ | ⟨_, _, he⟩
  · cases hw.symm.trans hi
    exact h.startCommand hr hp i
  · cases hw.symm.trans he
    exact h.of_idle rfl hr hp h.dataCanonical nofun

/-- Of the registers refused to a read while busy, the register page holds CTRW alone. -/
theorem pageReg_ne_data (w m : Nat) : pageReg w ≠ .data m := by
  intro h
  obtain ⟨h16, h20⟩ := readRefusedWhenBusy_pageReg (w := w) (h ▸ rfl)
  interval_cases w <;> cases h

/-- A word of the DATA window lies inside DATA as a whole, since DATA_BYTES is a multiple of four (00_scope.md R9). -/
theorem dataWord_inside {c : Config} {off m : Nat} (hc : c.wf = true) (ha : off % 4 = 0) (hb : off < c.windowBytes)
    (h : regAt off = .data m) : m + 4 ≤ c.dataBytes := by
  by_cases hp : off < 0x1000
  · rw [regAt, if_pos hp] at h
    exact absurd h (pageReg_ne_data _ m)
  · rw [regAt_of_ge_0x1000 (by omega)] at h
    have hm : off - 0x1000 = m := Reg.data.inj h
    simp only [Config.wf, Bool.and_eq_true, beq_iff_eq] at hc
    obtain ⟨⟨⟨⟨hmul, _⟩, _⟩, _⟩, _⟩ := hc
    unfold Config.windowBytes at hb
    omega

/-- A write keeps the invariant: what a running command reads is refused (20_memory.md R92), and a write to DATA stays
inside it. -/
theorem State.Inv.writeReg {s t : State} {r : Reg} {v : Word} (h : s.Inv) (hr : s.rstN = true)
    (hm : ∀ m, r = .data m → m + 4 ≤ s.cfg.dataBytes) (hw : writeReg r v s = .next t) : t.Inv := by
  have hs : (Machine.respond none false s).Inv := h.respond none false
  unfold Machine.writeReg at hw
  split at hw
  · cases hw
    exact hs.refuseAccess hr
  · rename_i hnr
    have hready := performed_of_not_refused hnr
    cases r with
    | ctrl =>
      cases hw
      exact hs.writeCtrl hr v
    | status =>
      cases hw
      exact hs.writeStatus hr v
    | id | ctrw | reserved =>
      cases hw
      exact hs
    | cmd => exact hs.writeCmd hr (hready.resolve_right nofun) hw
    | src | dst | len | key | ctr =>
      cases hw
      exact hs.of_idle rfl hr (hready.resolve_right nofun) hs.dataCanonical hs.noSchedErr
    | data m =>
      cases hw
      exact hs.of_idle rfl hr (hready.resolve_right nofun) (Memory.writeWord_wf v hs.dataCanonical (hm m rfl))
        hs.noSchedErr

theorem State.Inv.transact {s t : State} {x : Txn} (h : s.Inv) (hx : transact x s = .next t) : t.Inv := by
  rcases transact_next_cases hx with
    ⟨_, rfl⟩ | ⟨_, _, rfl⟩ | ⟨hr, _, off, _, _, rfl⟩ | ⟨hr, hwf, off, _, v, rfl, hw⟩
  · exact h.respondInReset x
  · exact h.respond (some 0) true
  · exact h.readReg hr (regAt off)
  · obtain ⟨_, ha, hb⟩ := (Txn.wf_iff _ _).1 hwf
    exact h.writeReg hr (fun m => dataWord_inside h.cfgLegal ha hb) hw

/-! ### The step -/

/-- Settles O46, by the input the step takes. -/
theorem everyStepKeepsSoundness : Obligations.EveryStepKeepsSoundness := by
  intro s t hs h
  have hs := hs.taken
  rcases step_next_cases h with
    ⟨rfl, _⟩ | ⟨op, hr, hp, _, hexec⟩ | ⟨_, rfl⟩ | ⟨_, rfl⟩ | ⟨x, _, hbus⟩
  · exact hs
  · obtain ⟨_, rfl⟩ := exec_running_next (s := s.taken) hp hexec
    exact hs.finishCommand hr hp
  · exact hs.powerOnReset
  · exact { cfgLegal := hs.cfgLegal, dataCanonical := hs.dataCanonical, runningChecked := hs.runningChecked,
            noSchedErr := hs.noSchedErr, held := nofun }
  · exact hs.transact hbus

/-- A transaction is answered, whatever it is. -/
theorem transact_answers (x : Txn) (s : State) : ∃ t, transact x s = .next t := by
  unfold transact
  split
  · exact ⟨_, rfl⟩
  · split
    · exact ⟨_, rfl⟩
    · cases x with
      | read off size => exact ⟨_, rfl⟩
      | write off size v =>
        obtain ⟨t, ht, _⟩ := writeReg_answers (regAt off) v s
        exact ⟨t, ht⟩

/-- The engine's ranges were checked before the command ran (60_exceptions.md R210, log 11). -/
theorem State.Inv.engineStep_answers {s : State} (h : s.Inv) : ∃ t, engineStep s = .next t := by
  unfold engineStep
  split
  · rename_i op _ hp
    obtain ⟨_, _, hcheck⟩ := h.runningChecked op hp
    exact ⟨_, exec_of_running hp (rangeFails_of_check hcheck)⟩
  · exact ⟨_, rfl⟩
  · exact ⟨_, rfl⟩

/-- Settles O47: of all inputs only the engine's step could stop. -/
theorem soundStateNeverStops : Obligations.SoundStateNeverStops := by
  intro s hs
  unfold Goes step nextStep
  split
  · exact hs.engineStep_answers
  · rename_i i rest _
    cases i with
    | bus x => exact transact_answers x _
    | engine => exact (hs.bookkeeping s.resp s.draws rest).engineStep_answers
    | rstLow | rstHigh => exact ⟨_, rfl⟩

end Sys2Proof.Machine
end

section
/-! PROOFS. KEY and RK are write-only (10_state.md R58, R63; 60_exceptions.md R217): a read answers the
same whatever they hold. -/

namespace Sys2Proof.Machine

/-- The state with other values in KEY and RK. -/
def State.withSecrets (s : State) (k : Quad) (rk : RoundKeys) : State := { s with key := k, rk := rk }

/-- No register reads KEY or RK: the KEY offsets answer 0, and RK has none (10_state.md R40, R58). -/
theorem readValue_withSecrets (r : Reg) (s : State) (k : Quad) (rk : RoundKeys) :
    readValue r (s.withSecrets k rk) = readValue r s := by
  cases r <;> rfl

theorem readReg_withSecrets_resp (r : Reg) (s : State) (k : Quad) (rk : RoundKeys) :
    (readReg r (s.withSecrets k rk)).resp = (readReg r s).resp := by
  have hbusy : busy (s.withSecrets k rk) = busy s := rfl
  unfold readReg
  rw [hbusy, readValue_withSecrets]
  split
  · rfl
  · rfl

/-- Settles O54: a refused transaction answers a fixed response, an accepted read the value of a
register that does not hold them. -/
theorem keyAndScheduleCannotBeReadBack : Obligations.KeyAndScheduleCannotBeReadBack := by
  intro s t off size rest k rk hx h
  have hx' : presents (s.withSecrets k rk) (.read off size) rest := hx
  cases hw : (Txn.read off size).wf s.cfg with
  | false =>
    cases h.symm.trans (step_of_bus_error hx hw)
    exact ⟨_, step_of_bus_error hx' hw, rfl⟩
  | true =>
    obtain ⟨hsize, ha, hb⟩ := (Txn.wf_iff _ _).1 hw
    obtain rfl : size = .bits32 := hsize
    cases h.symm.trans (step_of_read hx ha hb)
    exact ⟨_, step_of_read hx' ha hb, readReg_withSecrets_resp (regAt off) { s with inputs := rest } k rk⟩

end Sys2Proof.Machine
end

section
/-! PROOFS. The step by the input it takes, and the resets (70_reset_and_hazards.md R230 to R233): what `rst_n` low, a
soft reset, and an input while held in reset leave. -/

namespace Sys2Proof.Machine

/-! ### The step by its input -/

/-- A step takes the input at the head of the list. -/
theorem step_of_input {s : State} {i : Input} {rest : List Input} (h : s.inputs = i :: rest) :
    step s = takeInput i { s with inputs := rest } := by
  simp only [step, nextStep, h]

/-- With no input left the engine takes the step (log 8). -/
theorem step_of_no_inputs {s : State} (h : s.inputs = []) : step s = engineStep s := by
  simp only [step, nextStep, h]

/-- Where the engine's step is next, it is what the step performs. -/
theorem step_of_engineNext {s : State} {rest : List Input} (h : engineNext s rest) :
    step s = engineStep { s with inputs := rest } := by
  obtain ⟨_, hi | ⟨hi, rfl⟩⟩ := h
  · exact step_of_input hi
  · rw [step_of_no_inputs hi, ← hi]

theorem engineStep_of_running {s : State} {op : Instr} (hr : s.rstN = true) (hp : s.phase = .running op) :
    engineStep s = exec op s := by
  simp only [engineStep, hr, hp]

/-- While idle the engine waits. -/
theorem engineStep_of_idle {s : State} (hp : s.phase = .idle) : engineStep s = .next s := by
  cases hr : s.rstN with
  | true => simp only [engineStep, hr, hp]
  | false => simp only [engineStep, hr]

/-- While held in reset the engine waits (R230). -/
theorem engineStep_of_held {s : State} (hr : s.rstN = false) : engineStep s = .next s := by
  simp only [engineStep, hr]

/-- Settles O5: the engine's step is the running command's `exec`, or nothing. -/
theorem stepRunsTheRunningCommand : Obligations.StepRunsTheRunningCommand := by
  intro s rest h
  rw [step_of_engineNext h]
  exact ⟨fun op hp => engineStep_of_running h.1 hp, fun hp => engineStep_of_idle hp⟩

/-! ### Power-on reset -/

/-- Settles O43: the step is `powerOnReset`, whose RK and DATA are free values. -/
theorem powerOnResetResetsRegisters : Obligations.PowerOnResetResetsRegisters := fun s _ hi =>
  ⟨freeRoundKeys s.draws, { draw := s.draws, cells := [] }, s.draws + 1, step_of_input hi⟩

theorem respondInReset_eq (x : Txn) (s : State) : ∃ r n, respondInReset x s = { s with resp := r, draws := n } := by
  cases x with
  | read off size => exact ⟨_, _, rfl⟩
  | write off size v => exact ⟨_, _, rfl⟩

/-- Settles O44, by the input the step takes. -/
theorem nothingHappensWhileHeldInReset : Obligations.NothingHappensWhileHeldInReset := by
  intro s rest hr
  refine ⟨fun x hi => ?bus, fun hi => ?engine, step_of_input⟩
  case bus =>
    obtain ⟨t, ht⟩ := transact_answers x { s with inputs := rest }
    obtain ⟨r, n, heq⟩ := respondInReset_eq x { s with inputs := rest }
    have hfree : t = respondInReset x { s with inputs := rest } := transact_of_held hr ht
    exact ⟨r, n, (step_of_input hi).trans (ht.trans (congrArg _ (hfree.trans heq)))⟩
  case engine => exact (step_of_input hi).trans (engineStep_of_held hr)

/-! ### Soft reset -/

/-- With no destination range to abort, DATA stays as it is (R233). -/
theorem abortedData_of_length_zero {s : State} (h : abortedLength s = 0) : abortedData s = s.data := by
  rw [abortedData, h]
  rfl

/-- An abort changes bytes of the running command's destination range alone (R233). -/
theorem abortedData_sameOutside {s : State} {op : Instr} {n : Nat} (hp : s.phase = .running op)
    (hn : dataLength op s = some n) : sameOutside s.dst.toNat n s.data (abortedData s) := by
  refine sameOutside_scramble s.data s.draws (dstOffset s) ?_
  simp only [abortedLength, hp, hn]
  exact Nat.min_le_left n _

/-- Settles O41: the write is `softReset`, whose DATA is `abortedData`, of the state before it. -/
theorem softResetResetsRegisters : Obligations.SoftResetResetsRegisters := by
  intro s v rest hx hsrst
  obtain ⟨_, hstep⟩ := step_of_softReset hx hsrst
  refine ⟨freeRoundKeys s.draws, abortedData s, s.draws + 1, hstep, ?idle, ?keysched, ?block, ?mode⟩
  case idle =>
    intro hp
    exact abortedData_of_length_zero (by simp only [abortedLength, hp])
  case keysched =>
    intro hp
    exact abortedData_of_length_zero (by simp [abortedLength, hp, dataLength])
  case block =>
    rintro (hp | hp)
    · exact abortedData_sameOutside hp rfl
    · exact abortedData_sameOutside hp rfl
  case mode =>
    intro op hop hp
    exact abortedData_sameOutside hp (dataLength_of_mode hop s)

end Sys2Proof.Machine
end

section
/-! PROOFS. What a CMD write leaves while idle (70_reset_and_hazards.md R245), and that a running command completes
(R250). -/

namespace Sys2Proof.Machine

/-! ### After a CMD write -/

/-- Settles O13: a word that is no command is BADCMD, and a command is accepted or its first failing check reported. -/
theorem cmdWriteLeavesOneOfTwoStates : Obligations.CmdWriteLeavesOneOfTwoStates := by
  intro s w rest hp hx
  have hstep := step_of_cmd_write hp hx
  rcases writeCmd_idle (w := w) (s := { s with inputs := rest, resp := some ⟨none, false⟩ }) hp with
    ⟨op, hdecode, hw⟩ | ⟨_, _, hw⟩
  · refine ⟨_, hstep.trans hw, ?_⟩
    rcases startCommand_cases op { s with inputs := rest, resp := some ⟨none, false⟩ } with
      ⟨_, heq⟩ | ⟨code, hcheck, heq⟩
    · rw [heq]
      exact .inl ⟨op, rfl, hdecode, rfl, rfl⟩
    · rw [heq]
      exact .inr ⟨hp, rfl, (checkCommand_code hcheck).1⟩
  · exact ⟨_, hstep.trans hw, .inr ⟨hp, rfl, nofun⟩⟩

/-! ### A running command that no input resets -/

/-- While a command runs, an input that neither resets nor completes it touches the host's part alone. -/
theorem step_of_running_input {s : State} {op : Instr} {i : Input} {rest : List Input} (hr : s.rstN = true)
    (hp : s.phase = .running op) (hi : s.inputs = i :: rest) (hreset : isReset i = false) (hengine : i ≠ .engine) :
    ∃ p, p.inputs = rest ∧ step s = .next (s.withHost p) := by
  cases i with
  | bus x => exact step_of_running hp ⟨hr, hi⟩ hreset
  | engine => exact absurd rfl hengine
  | rstLow => cases hreset
  | rstHigh =>
    have hsame : { s with inputs := rest, rstN := true } = s.withHost { s.host with inputs := rest } := by
      rw [← hr]
      rfl
    exact ⟨{ s.host with inputs := rest }, rfl, (step_of_input hi).trans (congrArg _ hsame)⟩

/-- The engine's step completes the command with the effect `exec` answers now. -/
theorem run_one_of_engineNext {s u : State} {op : Instr} {rest : List Input} (h : engineNext s rest)
    (hp : s.phase = .running op) (hu : exec op s = .next u) :
    run 1 s = .next (u.withHost { s.host with done := true, inputs := rest }) := by
  have hexec : exec op { s with inputs := rest } = .next (u.withHost { s.host with done := true, inputs := rest }) :=
    exec_withHost { s.host with inputs := rest } hp hu
  rw [run_succ, step_of_engineNext h, engineStep_of_running (s := { s with inputs := rest }) h.1 hp, hexec]
  rfl

/-- The engine's step comes, from the list or after it, and the inputs before it do not change the effect, by
induction on the inputs. -/
theorem running_command_completes {s u : State} {op : Instr} {l : List Input} (hr : s.rstN = true)
    (hp : s.phase = .running op) (hi : s.inputs = l) (hreset : ∀ i ∈ l, isReset i = false)
    (hu : exec op s = .next u) :
    ∃ k p, k ≤ l.length + 1 ∧ p.done = true ∧ run k s = .next (u.withHost p) := by
  induction l generalizing s u with
  | nil => exact ⟨1, _, le_rfl, rfl, run_one_of_engineNext ⟨hr, .inr ⟨hi, rfl⟩⟩ hp hu⟩
  | cons i rest ih =>
    obtain ⟨hhead, htail⟩ := List.forall_mem_cons.1 hreset
    by_cases hengine : i = .engine
    · subst hengine
      exact ⟨1, _, by omega, rfl, run_one_of_engineNext ⟨hr, .inl hi⟩ hp hu⟩
    · obtain ⟨q, hq, hstep⟩ := step_of_running_input hr hp hi hhead hengine
      obtain ⟨k, p, hk, hdone, hrun⟩ := ih (s := s.withHost q) hr hp hq htail (exec_withHost q hp hu)
      refine ⟨k + 1, p, by simpa using hk, hdone, ?_⟩
      rw [run_succ, hstep]
      exact hrun

/-! ### Every list of inputs -/

/-- A command runs only out of reset (R230). -/
theorem State.Inv.rstN_of_running {s : State} {op : Instr} (h : s.Inv) (hp : s.phase = .running op) :
    s.rstN = true := by
  by_contra hr
  exact absurd (hp.symm.trans (h.held (Bool.eq_false_of_not_eq_true hr)).idle) nofun

/-- After the engine's step a sound block is idle: a running command has completed. -/
theorem State.Inv.engineStep_idle {s t : State} (h : s.Inv) (ht : engineStep s = .next t) : t.phase = .idle := by
  cases hp : s.phase with
  | idle =>
    cases ht.symm.trans (engineStep_of_idle hp)
    exact hp
  | running op =>
    rw [engineStep_of_running (h.rstN_of_running hp) hp] at ht
    obtain ⟨_, rfl⟩ := exec_running_next hp ht
    rfl

/-- One step for each input and one more for the engine, by induction on the inputs. -/
theorem State.Inv.run_ends_idle {s : State} {l : List Input} (h : s.Inv) (hi : s.inputs = l) :
    ∃ t, run (l.length + 1) s = .next t ∧ t.phase = .idle ∧ t.inputs = [] := by
  induction l generalizing s with
  | nil =>
    obtain ⟨t, hstep⟩ := soundStateNeverStops s h
    obtain ⟨_, hin⟩ := parametersNeverChange s t hstep
    refine ⟨t, ?_, h.engineStep_idle ((step_of_no_inputs hi).symm.trans hstep), by rw [hin, hi, List.tail_nil]⟩
    rw [List.length_nil, run_succ, hstep]
    rfl
  | cons i rest ih =>
    obtain ⟨t, hstep⟩ := soundStateNeverStops s h
    obtain ⟨_, hin⟩ := parametersNeverChange s t hstep
    obtain ⟨u, hrun, hu⟩ := ih (everyStepKeepsSoundness s t h hstep) (by rw [hin, hi, List.tail_cons])
    refine ⟨u, ?_, hu⟩
    rw [List.length_cons, run_succ, hstep]
    exact hrun

/-- Settles O53: soundness gives `exec` its answer, the running command completes with it, and no step stops. -/
theorem everyCommandCompletes : Obligations.EveryCommandCompletes := by
  intro s h
  refine ⟨fun op hp hreset => ?_, h.run_ends_idle rfl⟩
  obtain ⟨_, _, hcheck⟩ := h.runningChecked op hp
  have hu := exec_of_running hp (rangeFails_of_check hcheck)
  obtain ⟨k, p, hk, hdone, hrun⟩ := running_command_completes (h.rstN_of_running hp) hp rfl hreset hu
  exact ⟨_, k, _, hu, hk, hrun, rfl, hdone, rfl, rfl, rfl, rfl⟩

end Sys2Proof.Machine
end

section
/-! PROOFS. The known-answer test (95_test_vectors.md S1, V1, V4). The byte order cancels between storing words and
loading them, so the test is one on words: 24 rounds take the plaintext's words to the ciphertext's. -/

namespace Sys2Proof.Machine

/-- Encryption of a block given by its words: the load of R144 takes off the byte order it was stored in. -/
theorem encryptBlock_bytesLe (rk : RoundKeys) (x : Quad) :
    encryptBlock rk (bytesLe x) = bytesLe (encRounds rk 24 x) := by
  rw [encryptBlock, wordsLe_bytesLe]

/-- Settles O31: the last row of V4, the words after round 23, evaluated by the kernel and stored as bytes. -/
theorem knownAnswerTest : Obligations.KnownAnswerTest := by
  have hrounds : encRounds
      (deriveSchedule (bytesLe ⟨0x3c2d1e0f#32, 0x78695a4b#32, 0xb4a59687#32, 0xf0e1d2c3#32⟩)) 24
        ⟨0x13121110#32, 0x17161514#32, 0x1b1a1918#32, 0x1f1e1d1c#32⟩ =
      ⟨0x354ec89f#32, 0x18c6c628#32, 0xa7c73255#32, 0xfd8b6404#32⟩ := by decide +kernel
  rw [Obligations.KnownAnswerTest, encryptBlock_bytesLe, hrounds]

end Sys2Proof.Machine
end
